-- ==== Sys2Proof/Word.lean ====
section
/-! DEFINITION. The word types of the block (00_scope.md R6, R10: every value is unsigned, of a stated width). -/

namespace Sys2Proof

/-- u8: a general register, a timer, a memory byte, an immediate KK. -/
abbrev Byte := BitVec 8

/-- u16: `I`, `PC`, a stack entry, an instruction word. -/
abbrev Half := BitVec 16

/-- u12: the address field NNN (30_encoding.md R80). -/
abbrev Addr12 := BitVec 12

/-- A 4-bit field: the class nibble, the row count N (30_encoding.md R80). -/
abbrev Nibble := BitVec 4

/-- The number of a general register, V0 to VF (10_state.md R20). -/
abbrev Reg := Fin 16

/-- VF, "conventionally the flag register" (10_state.md R21). -/
abbrev VF : Reg := 15

end Sys2Proof
end

