-- ==== Sys2Proof/Syntax.lean ====
section
/-! DEFINITION. The instructions as syntax: one constructor for each of the 35 rows of spec/opcode_table.json
(30_encoding.md R84), with the operands of its shape (R82). An unrecognized word (R87) is no instruction of this type:
the decoder rejects it by name. -/

namespace Sys2Proof

/-- The 35 instructions of CHIP-8/35, in the order of R84. -/
inductive Instr where
  /-- 00E0, CLS (R190). -/
  | cls
  /-- 00EE, RET (R124). -/
  | ret
  /-- 0NNN with NNN neither 0E0 nor 0EE, SYS NNN (R120). -/
  | sys (nnn : Addr12)
  /-- 1NNN, JP NNN (R121). -/
  | jp (nnn : Addr12)
  /-- 2NNN, CALL NNN (R122). -/
  | call (nnn : Addr12)
  /-- 3XKK, SE Vx, KK (R125). -/
  | seImm (x : Reg) (kk : Byte)
  /-- 4XKK, SNE Vx, KK (R126). -/
  | sneImm (x : Reg) (kk : Byte)
  /-- 5XY0, SE Vx, Vy (R127). -/
  | seReg (x y : Reg)
  /-- 6XKK, LD Vx, KK (R140). -/
  | ldImm (x : Reg) (kk : Byte)
  /-- 7XKK, ADD Vx, KK (R141). -/
  | addImm (x : Reg) (kk : Byte)
  /-- 8XY0, LD Vx, Vy (R142). -/
  | ldReg (x y : Reg)
  /-- 8XY1, OR Vx, Vy (R143). -/
  | orReg (x y : Reg)
  /-- 8XY2, AND Vx, Vy (R144). -/
  | andReg (x y : Reg)
  /-- 8XY3, XOR Vx, Vy (R145). -/
  | xorReg (x y : Reg)
  /-- 8XY4, ADD Vx, Vy (R146). -/
  | addReg (x y : Reg)
  /-- 8XY5, SUB Vx, Vy (R147). -/
  | subReg (x y : Reg)
  /-- 8XY6, SHR Vx, Vy; Y is encoded and not read (R148). -/
  | shr (x y : Reg)
  /-- 8XY7, SUBN Vx, Vy (R149). -/
  | subnReg (x y : Reg)
  /-- 8XYE, SHL Vx, Vy; Y is encoded and not read (R150). -/
  | shl (x y : Reg)
  /-- 9XY0, SNE Vx, Vy (R128). -/
  | sneReg (x y : Reg)
  /-- ANNN, LD I, NNN (R170). -/
  | ldI (nnn : Addr12)
  /-- BNNN, JP V0, NNN; its offset register is X = NNN[11:8], a part of NNN (R129, C3). -/
  | jpV0 (nnn : Addr12)
  /-- CXKK, RND Vx, KK (R151). -/
  | rnd (x : Reg) (kk : Byte)
  /-- DXYN, DRW Vx, Vy, N (R191). -/
  | drw (x y : Reg) (n : Nibble)
  /-- EX9E, SKP Vx (R210). -/
  | skp (x : Reg)
  /-- EXA1, SKNP Vx (R211). -/
  | sknp (x : Reg)
  /-- FX07, LD Vx, DT (R212). -/
  | ldFromDt (x : Reg)
  /-- FX0A, LD Vx, K (R213). -/
  | ldKey (x : Reg)
  /-- FX15, LD DT, Vx (R214). -/
  | ldToDt (x : Reg)
  /-- FX18, LD ST, Vx (R215). -/
  | ldToSt (x : Reg)
  /-- FX1E, ADD I, Vx (R171). -/
  | addI (x : Reg)
  /-- FX29, LD F, Vx (R172). -/
  | ldF (x : Reg)
  /-- FX33, LD B, Vx (R173). -/
  | ldB (x : Reg)
  /-- FX55, LD [I], Vx: X is a count, V0 to V[X] (R174). -/
  | stRegs (x : Reg)
  /-- FX65, LD Vx, [I]: X is a count, V0 to V[X] (R175). -/
  | ldRegs (x : Reg)
  deriving DecidableEq, Repr

end Sys2Proof
end

