-- ==== Sys2Proof/WellFormed.lean ====
section
/-! DEFINITION. Which terms of `Instr` stand for a word. The operand types carry every bound (a register number is at
most 15, an immediate has its width); the one check left is that SYS is not one of the two class-0 words with a
meaning of their own (30_encoding.md R84 row 3). -/

namespace Sys2Proof

/-- An instruction that some word decodes to: SYS NNN needs NNN ≠ 0E0 (that word is CLS) and NNN ≠ 0EE (that word is
RET); every other term is well formed (R84, R86). -/
def Instr.wellFormed : Instr → Bool
  | .sys nnn => nnn != 0x0E0#12 && nnn != 0x0EE#12
  | .cls | .ret | .jp _ | .call _ | .seImm _ _ | .sneImm _ _ | .seReg _ _ | .ldImm _ _ | .addImm _ _ | .ldReg _ _
  | .orReg _ _ | .andReg _ _ | .xorReg _ _ | .addReg _ _ | .subReg _ _ | .shr _ _ | .subnReg _ _ | .shl _ _
  | .sneReg _ _ | .ldI _ | .jpV0 _ | .rnd _ _ | .drw _ _ _ | .skp _ | .sknp _ | .ldFromDt _ | .ldKey _ | .ldToDt _
  | .ldToSt _ | .addI _ | .ldF _ | .ldB _ | .stRegs _ | .ldRegs _ => true

end Sys2Proof
end

