-- ==== Sys2Proof/Decode.lean ====
section
/-! DEFINITION. The decoder (30_encoding.md R80 to R90), total on every word and on any bytes, rejecting by name; then the
encoder, written from the same table (R84). The bit patterns are the spec's from general knowledge (log 7). -/

namespace Sys2Proof

/-! ## Fields (R80) -/

/-- The class, `w[15:12]`. -/
def wordClass (w : Half) : Nibble := w.extractLsb' 12 4

/-- X, `w[11:8]`, as a register number. -/
def fieldX (w : Half) : Reg := (w.extractLsb' 8 4).toFin

/-- Y, `w[7:4]`, as a register number. -/
def fieldY (w : Half) : Reg := (w.extractLsb' 4 4).toFin

/-- N, `w[3:0]`. -/
def fieldN (w : Half) : Nibble := w.extractLsb' 0 4

/-- KK, `w[7:0]`. -/
def fieldKK (w : Half) : Byte := w.extractLsb' 0 8

/-- NNN, `w[11:0]`. -/
def fieldNNN (w : Half) : Addr12 := w.extractLsb' 0 12

/-! ## Decode -/

/-- Why a word is unrecognized (R87): the class whose sub-opcode bits match no row. No other class has one. -/
inductive Unrecognized where
  /-- `5XYn` with n ≠ 0. -/
  | class5
  /-- `8XYn` with n ∈ {8, 9, A, B, C, D, F}. -/
  | class8
  /-- `9XYn` with n ≠ 0. -/
  | class9
  /-- `EXkk` with kk ∉ {9E, A1}. -/
  | classE
  /-- `FXkk` with kk ∉ {07, 0A, 15, 18, 1E, 29, 33, 55, 65}. -/
  | classF
  deriving DecidableEq, Repr

/-- Why the decoder of a byte list answers no instruction. -/
inductive DecodeError where
  /-- The first two bytes are an unrecognized word (R87). -/
  | unrecognized (u : Unrecognized)
  /-- Fewer than two bytes: no whole instruction is there (log 21). A step never decodes so few. -/
  | truncated
  deriving DecidableEq, Repr

/-- The nine rows of class 8 (R85), selected by N. -/
def decodeClass8 (x y : Reg) (n : Nibble) : Except Unrecognized Instr :=
  match n.toNat with
  | 0x0 => .ok (.ldReg x y)
  | 0x1 => .ok (.orReg x y)
  | 0x2 => .ok (.andReg x y)
  | 0x3 => .ok (.xorReg x y)
  | 0x4 => .ok (.addReg x y)
  | 0x5 => .ok (.subReg x y)
  | 0x6 => .ok (.shr x y)
  | 0x7 => .ok (.subnReg x y)
  | 0xE => .ok (.shl x y)
  | _ => .error .class8

/-- The two rows of class E (R85), selected by KK. -/
def decodeClassE (x : Reg) (kk : Byte) : Except Unrecognized Instr :=
  if kk = 0x9E#8 then .ok (.skp x)
  else if kk = 0xA1#8 then .ok (.sknp x)
  else .error .classE

/-- The nine rows of class F (R85), selected by KK. -/
def decodeClassF (x : Reg) (kk : Byte) : Except Unrecognized Instr :=
  if kk = 0x07#8 then .ok (.ldFromDt x)
  else if kk = 0x0A#8 then .ok (.ldKey x)
  else if kk = 0x15#8 then .ok (.ldToDt x)
  else if kk = 0x18#8 then .ok (.ldToSt x)
  else if kk = 0x1E#8 then .ok (.addI x)
  else if kk = 0x29#8 then .ok (.ldF x)
  else if kk = 0x33#8 then .ok (.ldB x)
  else if kk = 0x55#8 then .ok (.stRegs x)
  else if kk = 0x65#8 then .ok (.ldRegs x)
  else .error .classF

/-- The decode function of R85, total on every 16-bit word. -/
def decodeWord (w : Half) : Except Unrecognized Instr :=
  match (wordClass w).toNat with
  | 0x0 => if w = 0x00E0#16 then .ok .cls else if w = 0x00EE#16 then .ok .ret else .ok (.sys (fieldNNN w))
  | 0x1 => .ok (.jp (fieldNNN w))
  | 0x2 => .ok (.call (fieldNNN w))
  | 0x3 => .ok (.seImm (fieldX w) (fieldKK w))
  | 0x4 => .ok (.sneImm (fieldX w) (fieldKK w))
  | 0x5 => if fieldN w = 0#4 then .ok (.seReg (fieldX w) (fieldY w)) else .error .class5
  | 0x6 => .ok (.ldImm (fieldX w) (fieldKK w))
  | 0x7 => .ok (.addImm (fieldX w) (fieldKK w))
  | 0x8 => decodeClass8 (fieldX w) (fieldY w) (fieldN w)
  | 0x9 => if fieldN w = 0#4 then .ok (.sneReg (fieldX w) (fieldY w)) else .error .class9
  | 0xA => .ok (.ldI (fieldNNN w))
  | 0xB => .ok (.jpV0 (fieldNNN w))
  | 0xC => .ok (.rnd (fieldX w) (fieldKK w))
  | 0xD => .ok (.drw (fieldX w) (fieldY w) (fieldN w))
  | 0xE => decodeClassE (fieldX w) (fieldKK w)
  | _ => decodeClassF (fieldX w) (fieldKK w)

/-- The word of two consecutive bytes, the first in bits 15:8 (20_memory.md R57, R62). -/
def wordOfBytes (hi lo : Byte) : Half := hi ++ lo

/-- The high byte of a word, stored at the lower address (R57). -/
def highByte (w : Half) : Byte := w.extractLsb' 8 8

/-- The low byte of a word, stored at the higher address (R57). -/
def lowByte (w : Half) : Byte := w.extractLsb' 0 8

/-- Decode any bytes: the instruction of the first two, with the rest of the list; every instruction is exactly two
bytes (R90). -/
def decode : List Byte → Except DecodeError (Instr × List Byte)
  | hi :: lo :: rest =>
    match decodeWord (wordOfBytes hi lo) with
    | .ok i => .ok (i, rest)
    | .error u => .error (.unrecognized u)
  | [_] => .error .truncated
  | [] => .error .truncated

/-! ## Encode -/

/-- A register number as its field. -/
def regBits (r : Reg) : Nibble := BitVec.ofFin r

/-- The word of an instruction, field by field from R84's pattern column. -/
def encode : Instr → Half
  | .cls => 0x00E0#16
  | .ret => 0x00EE#16
  | .sys nnn => 0x0#4 ++ nnn
  | .jp nnn => 0x1#4 ++ nnn
  | .call nnn => 0x2#4 ++ nnn
  | .seImm x kk => 0x3#4 ++ regBits x ++ kk
  | .sneImm x kk => 0x4#4 ++ regBits x ++ kk
  | .seReg x y => 0x5#4 ++ regBits x ++ regBits y ++ 0x0#4
  | .ldImm x kk => 0x6#4 ++ regBits x ++ kk
  | .addImm x kk => 0x7#4 ++ regBits x ++ kk
  | .ldReg x y => 0x8#4 ++ regBits x ++ regBits y ++ 0x0#4
  | .orReg x y => 0x8#4 ++ regBits x ++ regBits y ++ 0x1#4
  | .andReg x y => 0x8#4 ++ regBits x ++ regBits y ++ 0x2#4
  | .xorReg x y => 0x8#4 ++ regBits x ++ regBits y ++ 0x3#4
  | .addReg x y => 0x8#4 ++ regBits x ++ regBits y ++ 0x4#4
  | .subReg x y => 0x8#4 ++ regBits x ++ regBits y ++ 0x5#4
  | .shr x y => 0x8#4 ++ regBits x ++ regBits y ++ 0x6#4
  | .subnReg x y => 0x8#4 ++ regBits x ++ regBits y ++ 0x7#4
  | .shl x y => 0x8#4 ++ regBits x ++ regBits y ++ 0xE#4
  | .sneReg x y => 0x9#4 ++ regBits x ++ regBits y ++ 0x0#4
  | .ldI nnn => 0xA#4 ++ nnn
  | .jpV0 nnn => 0xB#4 ++ nnn
  | .rnd x kk => 0xC#4 ++ regBits x ++ kk
  | .drw x y n => 0xD#4 ++ regBits x ++ regBits y ++ n
  | .skp x => 0xE#4 ++ regBits x ++ 0x9E#8
  | .sknp x => 0xE#4 ++ regBits x ++ 0xA1#8
  | .ldFromDt x => 0xF#4 ++ regBits x ++ 0x07#8
  | .ldKey x => 0xF#4 ++ regBits x ++ 0x0A#8
  | .ldToDt x => 0xF#4 ++ regBits x ++ 0x15#8
  | .ldToSt x => 0xF#4 ++ regBits x ++ 0x18#8
  | .addI x => 0xF#4 ++ regBits x ++ 0x1E#8
  | .ldF x => 0xF#4 ++ regBits x ++ 0x29#8
  | .ldB x => 0xF#4 ++ regBits x ++ 0x33#8
  | .stRegs x => 0xF#4 ++ regBits x ++ 0x55#8
  | .ldRegs x => 0xF#4 ++ regBits x ++ 0x65#8

/-- The bytes of an instruction as memory holds them, the high byte first (R57). -/
def encodeBytes (i : Instr) : List Byte := [highByte (encode i), lowByte (encode i)]

/-! ## The host's numbering of a table word -/

/-- The word of an instruction whose bits are `w`, with the bits from `nbits` on zero. Every instruction is one 16-bit
word, so the table's bit 0 is the word's bit 0. -/
def tableHalf (nbits w : Nat) : Half := BitVec.ofNat 16 (w % 2 ^ nbits)

/-- The instruction the decoder reads from the bytes of a table word. -/
def decodeTableWord (nbits w : Nat) : Option Instr :=
  match decode [highByte (tableHalf nbits w), lowByte (tableHalf nbits w)] with
  | .ok (i, _) => some i
  | .error _ => none

end Sys2Proof
end

