-- ==== Sys2Proof/Config.lean ====
section
/-! DEFINITION. What is fixed for the block (00_scope.md R6) and the two values the spec leaves free in every step
(30_encoding.md R101), and the type of the block's one parameter, the fontset (R7). -/

namespace Sys2Proof.Config

/-- `MEM_SIZE`: addresses 0x000 to 0xFFF (R6, R50). -/
abbrev memSize : Nat := 4096

/-- `FONT_BASE` (R6). -/
abbrev fontBase : Nat := 0x050

/-- `FONT_SIZE`: 16 glyphs of 5 bytes (R6). -/
abbrev fontSize : Nat := 80

/-- `FONT : array[0..79] of 8 bits`, "an argument that satisfies `FONT[5] = 0x20`" (R7). The model takes it where Reset
installs it, and nowhere else; its default value (20_memory.md R56) is `Machine.defaultFont`. -/
structure Font where
  /-- The 80 bytes, glyph by glyph. -/
  bytes : Vector Byte fontSize
  /-- The one byte the source gives (R7). -/
  glyph1 : bytes[5] = 0x20#8
  deriving DecidableEq, Repr

/-- `ROM_BASE` (R6). -/
abbrev romBase : Nat := 0x200

/-- `ROM_MAX` (R6). -/
abbrev romMax : Nat := 3584

/-- `PC_RESET` (R6). -/
abbrev pcReset : Half := 0x200

/-- `STACK_DEPTH` (R6). -/
abbrev stackDepth : Nat := 16

/-- FREE VALUE (log 1). The input bit `tick` of Step call number `n`, where the host has laid out none. It has no
body: "A claim about the block holds for every sequence of `tick` values the host may supply" (R251). -/
opaque freeTick : Nat → Bool

/-- FREE VALUE (log 1). The input byte `rnd` of Step call number `n`, where the host has laid out none. It has no
body: "`rnd` is a free input, and a claim must hold for every `rnd`" (R151). -/
opaque freeRnd : Nat → Byte

end Sys2Proof.Config
end

