-- ==== Sys2Proof/Machine/State.lean ====
section
/-! DEFINITION. The state of the block as plain data (10_state.md R20 to R35, 20_memory.md R50, R55), the reasons a step can
stop, and the state right after reset (70_reset_and_hazards.md R270). -/

namespace Sys2Proof.Machine

/-- The causes of 60_exceptions.md R230's table. They are values of `STATUS`; taking one is a NEXT state (R231, log 4). -/
inductive FaultCause where
  /-- Code 1: a step's fetch with `PC` > 0xFFE. -/
  | fetchOutOfRange
  /-- Code 2: DXYN or FX65 reads above 0xFFF. -/
  | memReadOutOfRange
  /-- Code 3: FX33 or FX55 writes above 0xFFF. -/
  | memWriteOutOfRange
  /-- Code 4: 2NNN with `SP` = 16. -/
  | stackOverflow
  /-- Code 5: 00EE with `SP` = 0. -/
  | stackUnderflow
  /-- Code 6: FX33 or FX55 writes into 0x050..0x09F. -/
  | fontWrite
  deriving DecidableEq, Repr

/-- The argument of `raise Fault(cause, info)` (00_scope.md R11). `info` is an exact address or `SP` (R230), so it is no
bit vector. -/
structure Raised where
  cause : FaultCause
  info : Nat
  deriving DecidableEq, Repr

/-- `STATUS` (10_state.md R32). -/
inductive Status where
  | running
  | faulted (cause : FaultCause) (info : Nat)
  deriving DecidableEq, Repr

/-- The output of a step: `None` or `UnknownOpcode(addr, w)` (30_encoding.md R101, 60_exceptions.md R240). -/
inductive Event where
  | none
  | unknownOpcode (addr : Half) (w : Half)
  deriving DecidableEq, Repr

/-- The two inputs of one Step call (30_encoding.md R100, R101). -/
structure StepInput where
  tick : Bool
  rnd : Byte
  deriving DecidableEq, Repr

/-- `MEM` (20_memory.md R50) as the list of the bytes that differ from what an unlisted address reads as
(`unlistedByte` of Machine/Ops.lean: the reset contents of R55). Its canonical form is `Memory.wf`. -/
abbrev Memory := List Host.Cell

/-- `DISP` (10_state.md R30): 32 rows of 64 pixels, row 0 the top one; bit x of a row is the pixel of column x (log 20).
Pixels are read and written through `Display.pix` and `Display.toggle` alone. -/
abbrev Display := Vector (BitVec 64) 32

/-- Every display pixel 0 (10_state.md R30). -/
def Display.blank : Display := Vector.replicate 32 0#64

/-- The state of the block. The first eleven fields are the spec's (10_state.md's table); the last three are the model's
own: the output of the last step and the inputs of the coming ones. -/
structure State where
  /-- `V[0..15]` (R20). -/
  v : Vector Byte 16
  /-- `I` (R23). -/
  i : Half
  /-- `PC` (R24). -/
  pc : Half
  /-- `SP` (R26). -/
  sp : Byte
  /-- `STACK[0..15]` (R27). -/
  stack : Vector Half 16
  /-- `DT` (R28). -/
  dt : Byte
  /-- `ST` (R29). -/
  st : Byte
  /-- `DISP` (R30). -/
  disp : Display
  /-- `KEYSTATE` (R31): bit k is key k. A step never writes it, so it is also the step's snapshot `KEYS`. -/
  keys : BitVec 16
  /-- `STATUS` (R32). -/
  status : Status
  /-- `MEM` (R50). -/
  mem : Memory
  /-- The event the last step emitted (R101): an output, latched here because an outcome carries a state only (log 3). -/
  event : Event
  /-- The inputs the host has laid out for the coming Step calls, oldest first (R101; log 1). -/
  inputs : List StepInput
  /-- The number of Step calls so far: where `inputs` is empty, a step's inputs are the free values at this number
  (log 1). -/
  stepNo : Nat
  deriving DecidableEq, Repr

/-- The faults a step can stop with. The spec's own faults are not among them: each is taken, as the next state R231
describes (log 4). -/
inductive Fault where
  /-- Raised by CALL and RET (and nothing else) when `SP` > 16. The spec rules such a state out ("`SP` never leaves
  0..16", R26) and gives CALL and RET no effect in it; no run reaches one. Safe: it only stops (log 5). -/
  | stackPointerOutOfRange
  deriving DecidableEq, Repr

/-- The refusals a step can stop with. -/
inductive Refusal where
  /-- An instruction with no meaning yet, rejected by name in exec's arm. No arm of this model raises it. Safe. -/
  | notModelled (mnemonic : String)
  deriving DecidableEq, Repr

/-- The outcome of an instruction's meaning and of a step. -/
abbrev Outcome := Host.Outcome State Fault Refusal

/-- The machine right after reset (70_reset_and_hazards.md R270), every field at the spec's reset value; memory lists
nothing, so it reads as R55 says for the default `FONT` (log 6); `State.resetWith` of Machine/Ops.lean is the same for any `FONT`. The
last three fields are the model's own (logs 1 and 3). -/
def State.reset : State where
  v := Vector.replicate 16 0#8
  i := 0#16
  pc := Config.pcReset
  sp := 0#8
  stack := Vector.replicate 16 0#16
  dt := 0#8
  st := 0#8
  disp := Display.blank
  keys := 0#16
  status := .running
  mem := []
  event := .none
  inputs := []
  stepNo := 0

end Sys2Proof.Machine
end

