-- ==== Sys2Proof/Machine/Ops.lean ====
section
/-! DEFINITION. The named operations over memory, registers, the return stack, the keys, the timers, the step's inputs, and
taking a fault (20_memory.md R60 to R63, 60_exceptions.md R231, R250). Each meaning is written over these. -/

namespace Sys2Proof.Machine

/-! ## The fontset and the reset contents of memory (20_memory.md R55, R56) -/

/-- The default value of `FONT` (R56), one row per glyph. Only `FONT[5] = 0x20` is the source's; the other 79 bytes are
PRESUMED (log 6), and no statement about the machine rests on one of them. -/
def fontTable : List Byte :=
  [0xF0, 0x90, 0x90, 0x90, 0xF0] ++ [0x20, 0x60, 0x20, 0x20, 0x70] ++
  [0xF0, 0x10, 0xF0, 0x80, 0xF0] ++ [0xF0, 0x10, 0xF0, 0x10, 0xF0] ++
  [0x90, 0x90, 0xF0, 0x10, 0x10] ++ [0xF0, 0x80, 0xF0, 0x10, 0xF0] ++
  [0xF0, 0x80, 0xF0, 0x90, 0xF0] ++ [0xF0, 0x10, 0x20, 0x40, 0x40] ++
  [0xF0, 0x90, 0xF0, 0x90, 0xF0] ++ [0xF0, 0x90, 0xF0, 0x10, 0xF0] ++
  [0xF0, 0x90, 0xF0, 0x90, 0x90] ++ [0xE0, 0x90, 0xE0, 0x90, 0xE0] ++
  [0xF0, 0x80, 0x80, 0x80, 0xF0] ++ [0xE0, 0x90, 0x90, 0x90, 0xE0] ++
  [0xF0, 0x80, 0xF0, 0x80, 0xF0] ++ [0xF0, 0x80, 0xF0, 0x80, 0x80]

/-- The default `FONT` as an argument (00_scope.md R7). `State.reset` is the reset state with this one. -/
def defaultFont : Config.Font := ⟨⟨fontTable.toArray, rfl⟩, rfl⟩

/-- `FONT[k]`. -/
def fontByte (font : Config.Font) (k : Nat) : Byte := font.bytes.toList.getD k 0#8

/-- The fontset region 0x050 to 0x09F (R51). -/
def inFontset (a : Nat) : Bool := Config.fontBase ≤ a && a < Config.fontBase + Config.fontSize

/-- What an unlisted address reads as: the reset contents of memory at the default `FONT`, "`MEM[a] = FONT[a − 0x050]`
for 0x050 ≤ a ≤ 0x09F and `MEM[a] = 0` for every other `a`" (R55). Another `FONT` is in memory as listed bytes
(`resetMemory`), so the default here is a matter of layout only. -/
def unlistedByte (a : Nat) : Byte := if inFontset a then fontByte defaultFont (a - Config.fontBase) else 0#8

/-! ## Memory as data -/

/-- The entry of an address, if it is listed. -/
def Memory.lookup : Memory → Nat → Option Byte
  | [], _ => none
  | (b, v) :: m, a => if b = a then some v else Memory.lookup m a

/-- `MEM[a]`. -/
def Memory.read (m : Memory) (a : Nat) : Byte := (Memory.lookup m a).getD (unlistedByte a)

/-- List an address, in its place. -/
def Memory.insert : Memory → Nat → Byte → Memory
  | [], a, v => [(a, v)]
  | (b, w) :: m, a, v =>
    if a < b then (a, v) :: (b, w) :: m
    else if a = b then (a, v) :: m
    else (b, w) :: Memory.insert m a v

/-- Unlist an address. -/
def Memory.erase : Memory → Nat → Memory
  | [], _ => []
  | (b, w) :: m, a => if b = a then Memory.erase m a else (b, w) :: Memory.erase m a

/-- `MEM[a] <- v`, keeping the canonical form: a byte equal to what an unlisted address reads as is not listed. -/
def Memory.write (m : Memory) (a : Nat) (v : Byte) : Memory :=
  if v = unlistedByte a then Memory.erase m a else Memory.insert m a v

/-- `bytes` stored from `a` upward, with no check: the host's load and a program laid out by hand. -/
def Memory.writeAll : Memory → Nat → List Byte → Memory
  | m, _, [] => m
  | m, a, b :: bs => Memory.writeAll (Memory.write m a b) (a + 1) bs

/-- Memory reset: all bytes zero, then "the built-in 80-byte fontset ... starting at address 0x50" (R55), for any
`FONT` (R7). -/
def resetMemory (font : Config.Font) : Memory := Memory.writeAll [] Config.fontBase font.bytes.toList

/-- The machine right after reset, for any `FONT` (00_scope.md R7, 70_reset_and_hazards.md R270). `State.reset` is this
state for the default one. -/
def State.resetWith (font : Config.Font) : State := { State.reset with mem := resetMemory font }

/-- Every address is at least `lo` and the addresses rise strictly. -/
def Memory.risesFrom : Nat → Memory → Bool
  | _, [] => true
  | lo, (a, _) :: m => lo ≤ a && Memory.risesFrom (a + 1) m

/-- The canonical form: addresses strictly rising and inside the address space, no entry equal to what an unlisted
address reads as. -/
def Memory.wf (m : Memory) : Bool :=
  Memory.risesFrom 0 m && m.all fun c => c.1 < Config.memSize && c.2 != unlistedByte c.1

/-! ## Access primitives (20_memory.md R60 to R63) -/

/-- `MemRead(addr, 1)` (R60). -/
def memRead (m : Memory) (a : Nat) : Except Raised Byte :=
  if a > 0xFFF then .error ⟨.memReadOutOfRange, a⟩ else .ok (Memory.read m a)

/-- `MemWrite(addr, 1, v)` (R61). -/
def memWrite (m : Memory) (a : Nat) (v : Byte) : Except Raised Memory :=
  if a > 0xFFF then .error ⟨.memWriteOutOfRange, a⟩
  else if inFontset a then .error ⟨.fontWrite, a⟩
  else .ok (Memory.write m a v)

/-- `Fetch16(addr)` (R62): big-endian, at any address up to 0xFFE. -/
def fetch16 (m : Memory) (a : Nat) : Except Raised Half :=
  if a > 0xFFE then .error ⟨.fetchOutOfRange, a⟩
  else .ok (wordOfBytes (Memory.read m a) (Memory.read m (a + 1)))

/-- `n` reads at `a`, `a + 1`, …, in this order; the first that fails gives the fault (R63). -/
def readBytes (m : Memory) : Nat → Nat → Except Raised (List Byte)
  | _, 0 => .ok []
  | a, n + 1 =>
    match memRead m a with
    | .error r => .error r
    | .ok b =>
      match readBytes m (a + 1) n with
      | .error r => .error r
      | .ok bs => .ok (b :: bs)

/-- Writes at `a`, `a + 1`, …, in this order; the first that fails gives the fault, and then no write counts (R63). -/
def writeBytes : Memory → Nat → List Byte → Except Raised Memory
  | m, _, [] => .ok m
  | m, a, b :: bs =>
    match memWrite m a b with
    | .error r => .error r
    | .ok m' => writeBytes m' (a + 1) bs

/-! ## Registers and the program counter -/

/-- `V[r]` (10_state.md R20; none is hardwired). -/
def State.readV (s : State) (r : Reg) : Byte := s.v[r]

/-- `V[r] <- b`. -/
def State.writeV (s : State) (r : Reg) (b : Byte) : State := { s with v := s.v.set r b }

/-- `V[k] <- b` for the bytes `b` of a list and `k`, `k + 1`, …; a number above 15 names no register. -/
def writeRegsFrom : Vector Byte 16 → Nat → List Byte → Vector Byte 16
  | v, _, [] => v
  | v, k, b :: bs => writeRegsFrom (if h : k < 16 then v.set k b else v) (k + 1) bs

/-- `V[X] <- result`, then `VF <- flag`: with X = F the flag is what VF holds (10_state.md R22, 41_register_alu.md
R162, log 8). Both arguments are computed from the state before. -/
def State.writeResultThenFlag (s : State) (x : Reg) (result flag : Byte) : State :=
  (s.writeV x result).writeV VF flag

/-- `I <- v`, a 16-bit write (R23). -/
def State.writeI (s : State) (v : Half) : State := { s with i := v }

/-- `PC <- v`, a 16-bit write (R24). -/
def State.writePc (s : State) (v : Half) : State := { s with pc := v }

/-- `PC <- trunc_16(PC + 2)`: past the instruction, before it executes (30_encoding.md R100). -/
def State.advance (s : State) : State := s.writePc (s.pc + 2#16)

/-- A taken skip "adds exactly 2 to `PC`" (40_control_flow.md R131). -/
def State.skipIf (s : State) (taken : Bool) : State := if taken then s.writePc (s.pc + 2#16) else s

/-! ## The return stack -/

/-- `STACK[j]`. -/
def State.readStack (s : State) (j : Fin 16) : Half := s.stack[j]

/-- `STACK[SP] <- PC; SP <- SP + 1`, for an `SP` that names an entry (R122). -/
def State.push (s : State) (j : Fin 16) : State :=
  { s with stack := s.stack.set j s.pc, sp := s.sp + 1#8 }

/-- `SP <- SP - 1; PC <- STACK[SP]`, for the entry `j` below the top; the entry stays (R124, R27). -/
def State.pop (s : State) (j : Fin 16) : State :=
  { s with sp := s.sp - 1#8, pc := s.readStack j }

/-! ## Taking a fault (60_exceptions.md R230, R231) -/

/-- The code of a fault cause: R230's first column, "the spec's own numbering" (D14). -/
def FaultCause.code : FaultCause → Nat
  | .fetchOutOfRange => 1
  | .memReadOutOfRange => 2
  | .memWriteOutOfRange => 3
  | .stackOverflow => 4
  | .stackUnderflow => 5
  | .fontWrite => 6

/-- Fault entry: "the state after the step is the state before the step with one change: `STATUS <- Faulted(cause,
info)`" (R231). It saves nothing else, takes no vector and runs no handler; there is no return from it (R232). Apply
it to the state at the START of the step. -/
def State.takeFault (s : State) (r : Raised) : State := { s with status := .faulted r.cause r.info }

/-- The end of an instruction that may raise, started at `s`: what it made, or the fault entry on `s` itself, so that no
write before the raise counts (R11, R63, R231). -/
def State.completeOrFault (s : State) (made : Except Raised State) : Outcome :=
  match made with
  | .ok t => .next t
  | .error r => .next (s.takeFault r)

/-! ## The step's inputs and output (30_encoding.md R100, R101) -/

/-- The inputs of the next Step call: the first the host has laid out, or else the free values (log 1). -/
def State.input (s : State) : StepInput :=
  match s.inputs with
  | inp :: _ => inp
  | [] => ⟨Config.freeTick s.stepNo, Config.freeRnd s.stepNo⟩

/-- The input bit `tick`. -/
def State.tickIn (s : State) : Bool := s.input.tick

/-- The input byte `rnd`. -/
def State.rndIn (s : State) : Byte := s.input.rnd

/-- One Step call uses up its inputs, whatever the step did (log 2). -/
def State.consumeInput (s : State) : State :=
  { s with inputs := s.inputs.tail, stepNo := s.stepNo + 1 }

/-- A step's event is `None` unless its instruction reports (R100). -/
def State.beginStep (s : State) : State := { s with event := .none }

/-- `report UnknownOpcode(addr, w)` (60_exceptions.md R240): an event, not a fault. -/
def State.report (s : State) (addr w : Half) : State := { s with event := .unknownOpcode addr w }

/-- An unrecognized word is "reported (logged) and otherwise ignored": the pc stays advanced (30_encoding.md R87). -/
def execUnrecognized (w : Half) (s : State) : Outcome := .next (s.advance.report s.pc w)

/-! ## Keys (44_keys_timers.md R216) -/

/-- `Pressed(k) = (k < 16) and KEYS[k]`. -/
def State.pressed (s : State) (k : Nat) : Bool := k < 16 && s.keys.getLsbD k

/-! ## Timers (60_exceptions.md R250) -/

/-- One timer at the end of a step: "decremented only when > 0", and only on a tick. -/
def countDown (tick : Bool) (v : Byte) : Byte := if v = 0#8 then 0#8 else if tick then v - 1#8 else v

/-- `TimerTick(tick)`: both timers on the same tick. -/
def State.timerTick (s : State) (tick : Bool) : State :=
  { s with dt := countDown tick s.dt, st := countDown tick s.st }

/-! ## The end of a step (30_encoding.md R100) -/

/-- After the instruction: the timer tick, unless the instruction faulted (R231), and the inputs are used up. -/
def State.afterExecute (t : State) : State :=
  match t.status with
  | .running => (t.timerTick t.tickIn).consumeInput
  | .faulted _ _ => t.consumeInput

/-- The end of a step, on the instruction's outcome. -/
def finishStep : Outcome → Outcome
  | .next t => .next t.afterExecute
  | .fault f => .fault f
  | .refused r => .refused r

/-- A step of a faulted block "changes nothing, emits `None` and does not tick the timers" (R233). -/
def State.quiescentStep (s : State) : State := s.beginStep.consumeInput

/-- A step whose fetch raises (R62, R231). -/
def State.fetchFaultStep (s : State) (r : Raised) : State := (s.beginStep.takeFault r).consumeInput

/-! ## Laying an instruction out for the next step -/

/-- The fetch address that `withFetchWord` uses: the pc, or 0x200 where no fetch at the pc is legal (log 17). -/
def State.fetchSlot (s : State) : Half := if s.pc.toNat > 0xFFE then Config.pcReset else s.pc

/-- The state with the word stored where its next step fetches, and able to run it (log 17). -/
def State.layWord (s : State) (w : Half) : State :=
  { s with
    mem := Memory.writeAll s.mem s.fetchSlot.toNat [highByte w, lowByte w]
    pc := s.fetchSlot
    status := .running }

end Sys2Proof.Machine
end

