-- ==== Sys2Proof/Machine/Operands.lean ====
section
/-! DEFINITION. The operand forms (30_encoding.md R81, R82; 42_index_memory.md R176). -/

namespace Sys2Proof.Machine

/-- NNN "is zero-extended to 16 bits where it is written to `PC` or `I`" (R81). -/
def addrOperand (nnn : Addr12) : Half := nnn.setWidth 16

/-- The word of SYS NNN, for its report (R88): class 0 and NNN. -/
def sysWord (nnn : Addr12) : Half := 0x0#4 ++ nnn

/-- The offset register of JP V0: X = NNN[11:8], not V0 (40_control_flow.md R129, C3). -/
def offsetReg (nnn : Addr12) : Reg := (nnn.extractLsb' 8 4).toFin

/-- An 8-bit register widened to 16 bits (R171, R129). -/
def widen (b : Byte) : Half := b.setWidth 16

/-- The effective address of the k-th byte, "computed as an exact integer with no 12-bit mask and no 16-bit wrap"
(R176). -/
def State.dataAddr (s : State) (k : Nat) : Nat := s.i.toNat + k

/-- How many registers FX55 and FX65 move: X + 1 (R81). -/
def regCount (x : Reg) : Nat := x.val + 1

/-- The bytes of V0 to V[X], ascending (R174). -/
def State.firstRegs (s : State) (x : Reg) : List Byte := s.v.toList.take (regCount x)

/-- `I` after FX55 and FX65: `trunc_16(I + X + 1)` (R174, R175). -/
def State.indexAfter (s : State) (x : Reg) : Half := s.i + BitVec.ofNat 16 (regCount x)

/-- The address of the glyph of a digit: `0x050 + (V[X] & 0xF) * 5` (R172). -/
def glyphAddr (b : Byte) : Half := BitVec.ofNat 16 (Config.fontBase + (b &&& 0x0F#8).toNat * 5)

/-- The decimal digits of a byte: hundreds, tens, ones (R173). -/
def bcdDigits (b : Byte) : List Byte :=
  [BitVec.ofNat 8 (b.toNat / 100), BitVec.ofNat 8 (b.toNat / 10 % 10), BitVec.ofNat 8 (b.toNat % 10)]

/-- The lowest pressed key, scanning 0 to 15 in ascending order (44_keys_timers.md R213). -/
def State.lowestKey (s : State) : Option Nat := (List.range 16).find? fun k => s.keys.getLsbD k

end Sys2Proof.Machine
end

