-- ==== Sys2Proof/Machine/Flags.lean ====
section
/-! DEFINITION. Results and flags of the 8-bit ALU (41_register_alu.md R160, R161): each is computed exactly on the unsigned
values before the instruction, and narrowed at the end. -/

namespace Sys2Proof.Machine

/-- A condition as the flag byte 1 or 0. -/
def flagByte (c : Bool) : Byte := if c then 1#8 else 0#8

/-- `trunc_8(a + b)`. -/
def addResult (a b : Byte) : Byte := BitVec.ofNat 8 (a.toNat + b.toNat)

/-- Carry: the exact sum exceeds 255 (R146). -/
def carryFlag (a b : Byte) : Byte := flagByte (a.toNat + b.toNat > 255)

/-- `trunc_8(a - b + 256)` (R147). -/
def subResult (a b : Byte) : Byte := BitVec.ofNat 8 (a.toNat + 256 - b.toNat)

/-- No-borrow: the minuend is at least the subtrahend, so equality counts as no borrow (R147, R149). -/
def noBorrowFlag (a b : Byte) : Byte := flagByte (a.toNat ≥ b.toNat)

/-- `a >> 1` (R148). -/
def shrResult (a : Byte) : Byte := a >>> 1

/-- Bit 0, shifted out by SHR (R148). -/
def lowBitFlag (a : Byte) : Byte := flagByte (a.getLsbD 0)

/-- `trunc_8(a << 1)` (R150). -/
def shlResult (a : Byte) : Byte := a <<< 1

/-- Bit 7, shifted out by SHL (R150). -/
def highBitFlag (a : Byte) : Byte := flagByte (a.getLsbD 7)

/-- The flag of OR, AND and XOR: "VF <- 0, always" (R143 to R145). -/
def clearedFlag : Byte := 0#8

end Sys2Proof.Machine
end

