-- ==== Sys2Proof/Machine/Alu.lean ====
section
/-! DEFINITION. Register loads, the 8-bit ALU and RND (41_register_alu.md R140 to R151). Each meaning takes the state at
the start of the step and advances the pc itself (log 16); none faults. -/

namespace Sys2Proof.Machine

/-- LD Vx, KK (R140). -/
def execLdImm (x : Reg) (kk : Byte) (s : State) : Outcome := .next (s.advance.writeV x kk)

/-- ADD Vx, KK (R141): no flag, even on overflow. -/
def execAddImm (x : Reg) (kk : Byte) (s : State) : Outcome :=
  .next (s.advance.writeV x (addResult (s.readV x) kk))

/-- LD Vx, Vy (R142). -/
def execLdReg (x y : Reg) (s : State) : Outcome := .next (s.advance.writeV x (s.readV y))

/-- OR Vx, Vy (R143). -/
def execOr (x y : Reg) (s : State) : Outcome :=
  .next (s.advance.writeResultThenFlag x (s.readV x ||| s.readV y) clearedFlag)

/-- AND Vx, Vy (R144). -/
def execAnd (x y : Reg) (s : State) : Outcome :=
  .next (s.advance.writeResultThenFlag x (s.readV x &&& s.readV y) clearedFlag)

/-- XOR Vx, Vy (R145). -/
def execXor (x y : Reg) (s : State) : Outcome :=
  .next (s.advance.writeResultThenFlag x (s.readV x ^^^ s.readV y) clearedFlag)

/-- ADD Vx, Vy (R146). -/
def execAddReg (x y : Reg) (s : State) : Outcome :=
  .next (s.advance.writeResultThenFlag x (addResult (s.readV x) (s.readV y)) (carryFlag (s.readV x) (s.readV y)))

/-- SUB Vx, Vy (R147): V[X] is the minuend. -/
def execSub (x y : Reg) (s : State) : Outcome :=
  .next (s.advance.writeResultThenFlag x (subResult (s.readV x) (s.readV y)) (noBorrowFlag (s.readV x) (s.readV y)))

/-- SHR Vx, Vy (R148): it shifts V[X]; Y is not read. -/
def execShr (x _y : Reg) (s : State) : Outcome :=
  .next (s.advance.writeResultThenFlag x (shrResult (s.readV x)) (lowBitFlag (s.readV x)))

/-- SUBN Vx, Vy (R149): V[Y] is the minuend. -/
def execSubn (x y : Reg) (s : State) : Outcome :=
  .next (s.advance.writeResultThenFlag x (subResult (s.readV y) (s.readV x)) (noBorrowFlag (s.readV y) (s.readV x)))

/-- SHL Vx, Vy (R150): it shifts V[X]; Y is not read. -/
def execShl (x _y : Reg) (s : State) : Outcome :=
  .next (s.advance.writeResultThenFlag x (shlResult (s.readV x)) (highBitFlag (s.readV x)))

/-- RND Vx, KK (R151): the step's input byte, masked. -/
def execRnd (x : Reg) (kk : Byte) (s : State) : Outcome := .next (s.advance.writeV x (s.rndIn &&& kk))

end Sys2Proof.Machine
end

