-- ==== Sys2Proof/Machine/ControlFlow.lean ====
section
/-! DEFINITION. Control flow (40_control_flow.md R120 to R132). Each meaning takes the state at the start of the step and
advances the pc itself (log 16). No target is checked when it is written (R130). -/

namespace Sys2Proof.Machine

/-- SYS NNN (R120): a report, and nothing else. -/
def execSys (nnn : Addr12) (s : State) : Outcome := .next (s.advance.report s.pc (sysWord nnn))

/-- JP NNN (R121). -/
def execJp (nnn : Addr12) (s : State) : Outcome := .next (s.advance.writePc (addrOperand nnn))

/-- CALL NNN (R122): it pushes the advanced pc. -/
def execCall (nnn : Addr12) (s : State) : Outcome :=
  if h : s.sp.toNat < 16 then .next ((s.advance.push ⟨s.sp.toNat, h⟩).writePc (addrOperand nnn))
  else if s.sp.toNat = 16 then .next (s.takeFault ⟨.stackOverflow, s.sp.toNat⟩)
  else .fault .stackPointerOutOfRange

/-- RET (R124). -/
def execRet (s : State) : Outcome :=
  if s.sp.toNat = 0 then .next (s.takeFault ⟨.stackUnderflow, s.sp.toNat⟩)
  else if h : s.sp.toNat - 1 < 16 then .next (s.advance.pop ⟨s.sp.toNat - 1, h⟩)
  else .fault .stackPointerOutOfRange

/-- SE Vx, KK (R125). -/
def execSeImm (x : Reg) (kk : Byte) (s : State) : Outcome := .next (s.advance.skipIf (s.readV x == kk))

/-- SNE Vx, KK (R126). -/
def execSneImm (x : Reg) (kk : Byte) (s : State) : Outcome := .next (s.advance.skipIf (s.readV x != kk))

/-- SE Vx, Vy (R127). -/
def execSeReg (x y : Reg) (s : State) : Outcome := .next (s.advance.skipIf (s.readV x == s.readV y))

/-- SNE Vx, Vy (R128). -/
def execSneReg (x y : Reg) (s : State) : Outcome := .next (s.advance.skipIf (s.readV x != s.readV y))

/-- JP V0, NNN (R129): NNN + V[NNN[11:8]], not masked to 12 bits. -/
def execJpV0 (nnn : Addr12) (s : State) : Outcome :=
  .next (s.advance.writePc (addrOperand nnn + widen (s.readV (offsetReg nnn))))

end Sys2Proof.Machine
end

