-- ==== Sys2Proof/Machine/Display.lean ====
section
/-! DEFINITION. The sprite XOR compositor and the display instructions (43_display.md R190 to R195). -/

namespace Sys2Proof.Machine

/-! ## Pixels (10_state.md R30) -/

/-- `PIX(x, y)`: the pixel of column x and row y. -/
def Display.pix (d : Display) (x : Fin 64) (y : Fin 32) : Bool := d[y].getLsbD x

/-- `PIX(x, y) <- PIX(x, y) ^ 1`. -/
def Display.toggle (d : Display) (x : Fin 64) (y : Fin 32) : Display := d.set y (d[y] ^^^ 1#64 <<< x.val)

/-- Column `(x0 + b) mod 64` (R192, R193). -/
def spriteColumn (x0 : Byte) (b : Nat) : Fin 64 := Fin.ofNat 64 (x0.toNat + b)

/-- Row `(y0 + r) mod 32` (R192, R193). -/
def spriteRow (y0 : Byte) (r : Nat) : Fin 32 := Fin.ofNat 32 (y0.toNat + r)

/-! ## The compositor (R192) -/

/-- The framebuffer and the collision so far. -/
structure Canvas where
  disp : Display
  coll : Bool
  deriving DecidableEq, Repr

/-- One sprite bit at its pixel: a 1 on a lit pixel is a collision, and a 1 toggles the pixel; a 0 does nothing. -/
def Canvas.drawBit (c : Canvas) (bit : Bool) (px : Fin 64) (py : Fin 32) : Canvas :=
  if bit then ⟨c.disp.toggle px py, c.coll || c.disp.pix px py⟩ else c

/-- One sprite byte on row `py`, bit 7 (bitIndex 0) the leftmost. -/
def Canvas.drawByte (c : Canvas) (x0 : Byte) (py : Fin 32) (row : Byte) : Canvas :=
  (List.range 8).foldl (fun c b => c.drawBit (row.getLsbD (7 - b)) (spriteColumn x0 b) py) c

/-- The sprite bytes from row number `r` on. -/
def Canvas.drawRows : Canvas → Byte → Byte → Nat → List Byte → Canvas
  | c, _, _, _, [] => c
  | c, x0, y0, r, row :: rows => (c.drawByte x0 (spriteRow y0 r) row).drawRows x0 y0 (r + 1) rows

/-- `DrawSprite(x0, y0, n, p)` once its rows are read: the framebuffer and the collision bit (R192). -/
def drawSprite (d : Display) (x0 y0 : Byte) (rows : List Byte) : Canvas := Canvas.drawRows ⟨d, false⟩ x0 y0 0 rows

/-! ## Instructions -/

/-- CLS (R190). -/
def execCls (s : State) : Outcome := .next { s.advance with disp := Display.blank }

/-- The state after a sprite is drawn: the framebuffer, and VF the collision bit (R191). -/
def State.showCanvas (s : State) (c : Canvas) : State := { s with disp := c.disp }.writeV VF (flagByte c.coll)

/-- DRW Vx, Vy, N (R191): all sprite reads come before any pixel changes; a read that faults changes nothing. -/
def execDrw (x y : Reg) (n : Nibble) (s : State) : Outcome :=
  s.completeOrFault <|
    match readBytes s.mem (s.dataAddr 0) n.toNat with
    | .ok rows => .ok (s.advance.showCanvas (drawSprite s.disp (s.readV x) (s.readV y) rows))
    | .error r => .error r

end Sys2Proof.Machine
end

