-- ==== Sys2Proof/Machine/IndexMemory.lean ====
section
/-! DEFINITION. The index register and memory transfers (42_index_memory.md R170 to R178). Each meaning takes the state at
the start of the step and advances the pc itself (log 16). A transfer takes effect whole or not at all (R177). -/

namespace Sys2Proof.Machine

/-- LD I, NNN (R170). -/
def execLdI (nnn : Addr12) (s : State) : Outcome := .next (s.advance.writeI (addrOperand nnn))

/-- ADD I, Vx (R171): 16-bit wrap, no flag. -/
def execAddI (x : Reg) (s : State) : Outcome := .next (s.advance.writeI (s.i + widen (s.readV x)))

/-- LD F, Vx (R172): only the low nibble counts. -/
def execLdF (x : Reg) (s : State) : Outcome := .next (s.advance.writeI (glyphAddr (s.readV x)))

/-- Bytes stored at `I` upward by an instruction that then leaves `I` at `after`. -/
def State.storeThenIndex (s : State) (bytes : List Byte) (after : Half) : Outcome :=
  s.completeOrFault <|
    match writeBytes s.mem (s.dataAddr 0) bytes with
    | .ok m => .ok ({ s.advance with mem := m }.writeI after)
    | .error r => .error r

/-- LD B, Vx (R173): `I` is not changed. -/
def execLdB (x : Reg) (s : State) : Outcome := s.storeThenIndex (bcdDigits (s.readV x)) s.i

/-- LD [I], Vx (R174). -/
def execStRegs (x : Reg) (s : State) : Outcome := s.storeThenIndex (s.firstRegs x) (s.indexAfter x)

/-- LD Vx, [I] (R175): all reads come before the first register write. -/
def execLdRegs (x : Reg) (s : State) : Outcome :=
  s.completeOrFault <|
    match readBytes s.mem (s.dataAddr 0) (regCount x) with
    | .ok bytes => .ok ({ s.advance with v := writeRegsFrom s.v 0 bytes }.writeI (s.indexAfter x))
    | .error r => .error r

end Sys2Proof.Machine
end

