-- ==== Sys2Proof/Machine/KeysTimers.lean ====
section
/-! DEFINITION. Key and timer instructions (44_keys_timers.md R210 to R216). Each meaning takes the state at the start of
the step and advances the pc itself (log 16); the step's timer tick comes after it (R250). None faults. -/

namespace Sys2Proof.Machine

/-- SKP Vx (R210): V[X] unmasked. -/
def execSkp (x : Reg) (s : State) : Outcome := .next (s.advance.skipIf (s.pressed (s.readV x).toNat))

/-- SKNP Vx (R211). -/
def execSknp (x : Reg) (s : State) : Outcome := .next (s.advance.skipIf (!s.pressed (s.readV x).toNat))

/-- LD Vx, DT (R212): the value before this step's tick. -/
def execLdFromDt (x : Reg) (s : State) : Outcome := .next (s.advance.writeV x s.dt)

/-- LD Vx, K (R213): the lowest pressed key, or the pc back at this instruction. A key that is held counts (log 13). -/
def execLdKey (x : Reg) (s : State) : Outcome :=
  match s.lowestKey with
  | some k => .next (s.advance.writeV x (BitVec.ofNat 8 k))
  | none => .next (s.advance.writePc (s.advance.pc - 2#16))

/-- LD DT, Vx (R214). -/
def execLdToDt (x : Reg) (s : State) : Outcome := .next { s.advance with dt := s.readV x }

/-- LD ST, Vx (R215). -/
def execLdToSt (x : Reg) (s : State) : Outcome := .next { s.advance with st := s.readV x }

end Sys2Proof.Machine
end

