-- ==== Sys2Proof/Machine/Step.lean ====
section
/-! DEFINITION. One step (30_encoding.md R100): the status check, the fetch, decode, the instruction, the timer tick. -/

namespace Sys2Proof.Machine

/-- `Step(tick, rnd)` with its inputs taken from the state (`State.input`, log 1). A fault is taken on the state at the
start of the step (R231). -/
def step (s : State) : Host.Outcome State Fault Refusal :=
  match s.status with
  | .faulted _ _ => .next s.quiescentStep
  | .running =>
    match fetch16 s.mem s.pc.toNat with
    | .error r => .next (s.fetchFaultStep r)
    | .ok w =>
      match decodeWord w with
      | .ok i => finishStep (exec i s.beginStep)
      | .error _ => finishStep (execUnrecognized w s.beginStep)

/-- The state with the instruction of a table word laid out where `step` fetches next: stored at the pc, with the block
`Running`, and the pc at 0x200 where it was above 0xFFE (log 17). -/
def State.withFetchWord (s : State) (nbits w : Nat) : State := s.layWord (tableHalf nbits w)

end Sys2Proof.Machine
end

