-- ==== Sys2Proof/Machine/HostOps.lean ====
section
/-! DEFINITION. The host's five operations (70_reset_and_hazards.md R275), each atomic and only between steps (R276). `step`
is Step; the other four act on a state between two steps (log 22). -/

namespace Sys2Proof.Machine

/-- `Reset()` (R270) of a block whose parameter is `font` (00_scope.md R7), from any state. The model's own input supply
goes on: it is the host's, not the block's (log 18). -/
def State.hostReset (s : State) (font : Config.Font) : State :=
  { State.resetWith font with inputs := s.inputs, stepNo := s.stepNo }

/-- What `LoadROM` returns (20_memory.md R69). -/
inductive LoadResult where
  | loadOk
  | romTooLarge
  deriving DecidableEq, Repr

/-- `LoadROM(bytes)` (R69): all of the bytes at 0x200, or none. -/
def State.loadRom (s : State) (bytes : List Byte) : LoadResult × State :=
  if bytes.length > Config.romMax then (.romTooLarge, s)
  else (.loadOk, { s with mem := Memory.writeAll s.mem Config.romBase bytes })

/-- `SetKey(key, pressed)` (60_exceptions.md R246): ignored for a key of 16 or more. -/
def State.setKey (s : State) (key : Nat) (pressed : Bool) : State :=
  if key ≥ 16 then s
  else { s with keys := if pressed then s.keys ||| 1#16 <<< key else s.keys &&& ~~~(1#16 <<< key) }

/-- `ReadDisplay()` (R247): "element `y × 64 + x` is `PIX(x, y)`". -/
def State.readDisplay (s : State) : List Bool :=
  (List.range 2048).map fun k => s.disp.pix (Fin.ofNat 64 k) (Fin.ofNat 32 (k / 64))

/-- `Step(tick, rnd)` with the two inputs given (30_encoding.md R100). -/
def State.hostStep (s : State) (tick : Bool) (rnd : Byte) : Outcome :=
  step { s with inputs := ⟨tick, rnd⟩ :: s.inputs }

/-- The operations of R275. -/
inductive HostOp where
  | reset
  | loadRom (bytes : List Byte)
  | step (tick : Bool) (rnd : Byte)
  | setKey (key : Nat) (pressed : Bool)
  | readDisplay
  deriving DecidableEq, Repr

/-- What an operation gives back to the host, by R275's table. -/
inductive HostAnswer where
  | nothing
  | load (r : LoadResult)
  | event (e : Event)
  | snapshot (pixels : List Bool)
  deriving DecidableEq, Repr

/-- One host operation on a block whose parameter is `font`: the next state and what the host is given. -/
def State.hostOp (s : State) (font : Config.Font) : HostOp → Host.Outcome (State × HostAnswer) Fault Refusal
  | .reset => .next (s.hostReset font, .nothing)
  | .loadRom bytes => .next ((s.loadRom bytes).2, .load (s.loadRom bytes).1)
  | .step tick rnd =>
    match s.hostStep tick rnd with
    | .next t => .next (t, .event t.event)
    | .fault f => .fault f
    | .refused r => .refused r
  | .setKey key pressed => .next (s.setKey key pressed, .nothing)
  | .readDisplay => .next (s, .snapshot s.readDisplay)

/-- A sequence of host operations in any order (R276), stopping where a step stops. -/
def State.hostRun (s : State) (font : Config.Font) : List HostOp → Outcome
  | [] => .next s
  | op :: ops =>
    match s.hostOp font op with
    | .next (t, _) => t.hostRun font ops
    | .fault f => .fault f
    | .refused r => .refused r

end Sys2Proof.Machine
end

