-- ==== Sys2Proof/Safety.lean ====
section
/-! DEFINITION. The terms claims are written in: what a step runs, what an instruction leaves unchanged, when a fault is
due, and the invariant that every step keeps. -/

namespace Sys2Proof.Machine

/-! ## What the next step runs -/

/-- The word at the pc, its high byte first, where a fetch is legal (20_memory.md R62). -/
def NextWord (s : State) (w : Half) : Prop :=
  s.pc.toNat ≤ 0xFFE ∧
    w = wordOfBytes (Memory.read s.mem s.pc.toNat) (Memory.read s.mem (s.pc.toNat + 1))

/-- The bytes at the pc decode to the instruction `i`. -/
def NextInstr (s : State) (i : Instr) : Prop :=
  s.pc.toNat ≤ 0xFFE ∧
    decode [Memory.read s.mem s.pc.toNat, Memory.read s.mem (s.pc.toNat + 1)] = .ok (i, [])

/-! ## Frames (00_scope.md R12: "Any state that an instruction rule does not name is unchanged") -/

/-- The parts of the state besides the general registers; `supply` is the model's `inputs` and `stepNo`. -/
inductive Part where
  | i | pc | sp | stack | dt | st | disp | keys | status | mem | event | supply
  deriving DecidableEq, Repr

/-- From `s` to `t` nothing changes but the general registers that satisfy `regs` and the parts listed. Memory is
compared byte by byte through `Memory.read`, the framebuffer pixel by pixel. -/
structure OnlyChanges (regs : Reg → Prop) (parts : List Part) (s t : State) : Prop where
  v : ∀ r, ¬ regs r → t.readV r = s.readV r
  i : .i ∉ parts → t.i = s.i
  pc : .pc ∉ parts → t.pc = s.pc
  sp : .sp ∉ parts → t.sp = s.sp
  stack : .stack ∉ parts → ∀ j, t.readStack j = s.readStack j
  dt : .dt ∉ parts → t.dt = s.dt
  st : .st ∉ parts → t.st = s.st
  disp : .disp ∉ parts → ∀ x y, t.disp.pix x y = s.disp.pix x y
  keys : .keys ∉ parts → t.keys = s.keys
  status : .status ∉ parts → t.status = s.status
  mem : .mem ∉ parts → ∀ a, Memory.read t.mem a = Memory.read s.mem a
  event : .event ∉ parts → t.event = s.event
  supply : .supply ∉ parts → t.inputs = s.inputs ∧ t.stepNo = s.stepNo

/-- No general register. -/
def noReg : Reg → Prop := fun _ => False

/-- The outcome of a fault's entry (60_exceptions.md R231): the state with `STATUS` faulted, and nothing else changed. -/
def EntersFault (o : Outcome) (s : State) (c : FaultCause) (n : Nat) : Prop :=
  ∃ t, o = .next t ∧ t.status = .faulted c n ∧ OnlyChanges noReg [.status] s t

/-- A timer that read `v` reads `w` after the end of a step that did not fault: one less on a tick, "clamped at 0"
(60_exceptions.md R250), and unchanged without one. -/
def TicksTo (tick : Bool) (v w : Byte) : Prop := w.toNat = if tick = true then v.toNat - 1 else v.toNat

/-! ## Accesses through `I` (20_memory.md R59 to R61) -/

/-- `n` is the address of the first of `count` accesses at `I`, `I + 1`, … for which `bad` holds. -/
def FirstBad (bad : Nat → Prop) (s : State) (count n : Nat) : Prop :=
  ∃ k, k < count ∧ n = s.dataAddr k ∧ bad n ∧ ∀ j, j < k → ¬ bad (s.dataAddr j)

/-- A read at `a` fails (R60). -/
def BadRead (a : Nat) : Prop := 0xFFF < a

/-- An instruction's write at `a` fails (R61). -/
def BadWrite (a : Nat) : Prop := 0xFFF < a ∨ (0x050 ≤ a ∧ a ≤ 0x09F)

/-- `count` reads at `I` upward are all legal. -/
def CanRead (s : State) (count : Nat) : Prop := ∀ k, k < count → ¬ BadRead (s.dataAddr k)

/-- `count` writes at `I` upward are all legal. -/
def CanWrite (s : State) (count : Nat) : Prop := ∀ k, k < count → ¬ BadWrite (s.dataAddr k)

/-- The address `a` is none of the `count` addresses at `I` upward. -/
def OutsideAccess (s : State) (count a : Nat) : Prop := ∀ k, k < count → a ≠ s.dataAddr k

/-- The data bytes an instruction reads (R59's table). -/
def dataReads : Instr → Nat
  | .drw _ _ n => n.toNat
  | .ldRegs x => x.val + 1
  | _ => 0

/-- The data bytes an instruction writes (R59's table). -/
def dataWrites : Instr → Nat
  | .ldB _ => 3
  | .stRegs x => x.val + 1
  | _ => 0

/-! ## When a fault is due (60_exceptions.md R230, R234) -/

/-- The step that starts at `s` raises the fault of this cause and info: R230's table, row by row. -/
def FaultDue (s : State) : FaultCause → Nat → Prop
  | .fetchOutOfRange, n => 0xFFE < s.pc.toNat ∧ n = s.pc.toNat
  | .memReadOutOfRange, n => ∃ i, NextInstr s i ∧ FirstBad BadRead s (dataReads i) n
  | .memWriteOutOfRange, n => ∃ i, NextInstr s i ∧ FirstBad BadWrite s (dataWrites i) n ∧ 0xFFF < n
  | .stackOverflow, n => (∃ nnn, NextInstr s (.call nnn)) ∧ s.sp.toNat = 16 ∧ n = 16
  | .stackUnderflow, n => NextInstr s .ret ∧ s.sp.toNat = 0 ∧ n = 0
  | .fontWrite, n => ∃ i, NextInstr s i ∧ FirstBad BadWrite s (dataWrites i) n ∧ 0x050 ≤ n ∧ n ≤ 0x09F

/-! ## The sprite (43_display.md R192) -/

/-- Some 1 bit of the `n`-row sprite at `I`, drawn from `(x0, y0)`, falls on the pixel `(px, py)`. -/
def SpriteHits (s : State) (x0 y0 : Byte) (n : Nat) (px : Fin 64) (py : Fin 32) : Prop :=
  ∃ r b, r < n ∧ b < 8 ∧ (Memory.read s.mem (s.dataAddr r)).getLsbD (7 - b) = true ∧
    px.val = (x0.toNat + b) % 64 ∧ py.val = (y0.toNat + r) % 32

/-! ## The invariant -/

/-- What `STATUS` records is true of the state that faulted (R230's "when" and "info recorded" columns). -/
def StatusTruthful (s : State) : Prop :=
  match s.status with
  | .running => True
  | .faulted .fetchOutOfRange n => 0xFFE < s.pc.toNat ∧ n = s.pc.toNat
  | .faulted .memReadOutOfRange n => 0xFFF < n
  | .faulted .memWriteOutOfRange n => 0xFFF < n
  | .faulted .stackOverflow n => s.sp.toNat = 16 ∧ n = 16
  | .faulted .stackUnderflow n => s.sp.toNat = 0 ∧ n = 0
  | .faulted .fontWrite n => 0x050 ≤ n ∧ n ≤ 0x09F

/-- What holds at reset and every step keeps, on a block whose parameter is `font` (00_scope.md R7). -/
structure Inv (font : Config.Font) (s : State) : Prop where
  /-- Memory is in its canonical form. -/
  mem : Memory.wf s.mem = true
  /-- "This makes §3's 'immutable' true of every reachable running state" (20_memory.md R54, D13). -/
  font : ∀ k, k < 80 → Memory.read s.mem (0x050 + k) = fontByte font k
  /-- "`SP` never leaves 0..16" (10_state.md R26). -/
  sp : s.sp.toNat ≤ 16
  /-- "RET restores a value CALL pushed, which is at most 0x1000" (R25). -/
  stack : ∀ j, (s.readStack j).toNat ≤ 0x1000
  /-- "No step leaves a value above 0x10FE in `PC`" (R25). -/
  pc : s.pc.toNat ≤ 0x10FE
  /-- `STATUS` is `Running` or a truthful record of a fault. -/
  status : StatusTruthful s

/-- A step that is safe in the claims' sense: it ends in a state that is `Running`. -/
def SafeStep (s : State) : Prop := ∃ t, step s = .next t ∧ t.status = .running

end Sys2Proof.Machine
end

