-- ==== Sys2Proof/Certificates/Slice0/Obligations.lean ====
section
/-! DEFINITION. The statements for the provers, in the terms of Sys2Proof/Safety.lean. Each docstring names the rules of
spec/ it formalises. `t` is the state after; `OnlyChanges` is the frame. -/

open Sys2Proof Sys2Proof.Machine

/-! ## Reset, memory, and the access primitives -/

/-- R270, R55, R7: the reset state, and what Reset leaves from any state in any STATUS, for every FONT; address 0x055 reads
0x20 whatever the FONT. That the display is blank and the keys are released is the spec's decision D16 (log 14). -/
def Obligations.ResetSetsEveryPieceOfState : Prop :=
  (∀ (font : Config.Font) (t : State), (t = State.resetWith font ∨ ∃ s : State, t = s.hostReset font) →
    (∀ a, Memory.read t.mem a = if 0x050 ≤ a ∧ a ≤ 0x09F then fontByte font (a - 0x050) else 0#8) ∧
    Memory.read t.mem 0x055 = 0x20#8 ∧
    (∀ r, t.readV r = 0#8) ∧ t.i = 0#16 ∧ t.pc = 0x200#16 ∧ t.sp = 0#8 ∧ (∀ j, t.readStack j = 0#16) ∧
    t.dt = 0#8 ∧ t.st = 0#8 ∧ (∀ x y, t.disp.pix x y = false) ∧ t.keys = 0#16 ∧ t.status = .running) ∧
  (∀ (font : Config.Font) (s : State), (s.hostReset font).hostReset font = s.hostReset font)

/-- The model's choice (log 6, PRESUMED): the machine's `State.reset` is the reset state with the default FONT of R56. -/
def Obligations.ResetStateIsThatOfTheDefaultFont : Prop := State.resetWith defaultFont = State.reset

/-- R60, R61, R62: MemRead, MemWrite and Fetch16, with their faults; a write changes its own byte and no other. -/
def Obligations.AccessPrimitivesReadWriteAndFault : Prop :=
  ∀ (m : Memory) (a : Nat) (v : Byte),
    memRead m a = (if 0xFFF < a then .error ⟨.memReadOutOfRange, a⟩ else .ok (Memory.read m a)) ∧
    (0xFFF < a → memWrite m a v = .error ⟨.memWriteOutOfRange, a⟩) ∧
    (0x050 ≤ a ∧ a ≤ 0x09F → memWrite m a v = .error ⟨.fontWrite, a⟩) ∧
    (a ≤ 0xFFF → ¬ (0x050 ≤ a ∧ a ≤ 0x09F) → ∃ m', memWrite m a v = .ok m' ∧ Memory.read m' a = v ∧
      ∀ b, b ≠ a → Memory.read m' b = Memory.read m b) ∧
    fetch16 m a = (if 0xFFE < a then .error ⟨.fetchOutOfRange, a⟩
      else .ok (Memory.read m a ++ Memory.read m (a + 1)))

/-- The memory list is a faithful picture of the 4096 bytes: two canonical memories that read the same everywhere are the
same data. The canonical form is the model's own. -/
def Obligations.CanonicalMemoriesReadingAlikeAreEqual : Prop :=
  ∀ m m' : Memory, Memory.wf m = true → Memory.wf m' = true →
    (∀ a, Memory.read m a = Memory.read m' a) → m = m'

/-! ## Encoding -/

/-- R84, R85: decoding an encoded well-formed instruction gives it back, every operand at every value, whatever bytes
follow. -/
def Obligations.DecodeOfEncodeIsTheInstruction : Prop :=
  ∀ (i : Instr) (rest : List Byte), i.wellFormed = true →
    decodeWord (encode i) = .ok i ∧ decode (encodeBytes i ++ rest) = .ok (i, rest)

/-- R86: a word decodes to one instruction only, and each instruction has one word. -/
def Obligations.DecodedInstructionEncodesToItsWord : Prop :=
  ∀ (w : Half) (i : Instr), decodeWord w = .ok i → i.wellFormed = true ∧ encode i = w

/-- R84: one word of each row, written out from its pattern, at the bytes memory holds them in. The patterns are from
general knowledge (log 7). -/
def Obligations.WrittenWordsDecodeByThePatterns : Prop :=
  decode [0x00, 0xE0] = .ok (.cls, []) ∧ decode [0x00, 0xEE] = .ok (.ret, []) ∧
  decode [0x01, 0x23] = .ok (.sys 0x123#12, []) ∧ decode [0x12, 0x34] = .ok (.jp 0x234#12, []) ∧
  decode [0x24, 0x00] = .ok (.call 0x400#12, []) ∧ decode [0x3A, 0x05] = .ok (.seImm 10 0x05#8, []) ∧
  decode [0x41, 0xFF] = .ok (.sneImm 1 0xFF#8, []) ∧ decode [0x53, 0x40] = .ok (.seReg 3 4, []) ∧
  decode [0x6F, 0x42] = .ok (.ldImm 15 0x42#8, []) ∧ decode [0x70, 0x01] = .ok (.addImm 0 0x01#8, []) ∧
  decode [0x81, 0xF0] = .ok (.ldReg 1 15, []) ∧ decode [0x81, 0x21] = .ok (.orReg 1 2, []) ∧
  decode [0x81, 0x22] = .ok (.andReg 1 2, []) ∧ decode [0x81, 0x23] = .ok (.xorReg 1 2, []) ∧
  decode [0x81, 0x24] = .ok (.addReg 1 2, []) ∧ decode [0x81, 0x25] = .ok (.subReg 1 2, []) ∧
  decode [0x81, 0x26] = .ok (.shr 1 2, []) ∧ decode [0x81, 0x27] = .ok (.subnReg 1 2, []) ∧
  decode [0x81, 0x2E] = .ok (.shl 1 2, []) ∧ decode [0x93, 0x40] = .ok (.sneReg 3 4, []) ∧
  decode [0xA3, 0x00] = .ok (.ldI 0x300#12, []) ∧ decode [0xB2, 0xF0] = .ok (.jpV0 0x2F0#12, []) ∧
  decode [0xC3, 0x0F] = .ok (.rnd 3 0x0F#8, []) ∧ decode [0xD1, 0x25] = .ok (.drw 1 2 5#4, []) ∧
  decode [0xE1, 0x9E] = .ok (.skp 1, []) ∧ decode [0xE1, 0xA1] = .ok (.sknp 1, []) ∧
  decode [0xF3, 0x07] = .ok (.ldFromDt 3, []) ∧ decode [0xF5, 0x0A] = .ok (.ldKey 5, []) ∧
  decode [0xF2, 0x15] = .ok (.ldToDt 2, []) ∧ decode [0xF2, 0x18] = .ok (.ldToSt 2, []) ∧
  decode [0xF2, 0x1E] = .ok (.addI 2, []) ∧ decode [0xF0, 0x29] = .ok (.ldF 0, []) ∧
  decode [0xF5, 0x33] = .ok (.ldB 5, []) ∧ decode [0xF2, 0x55] = .ok (.stRegs 2, []) ∧
  decode [0xFF, 0x65] = .ok (.ldRegs 15, [])

/-- R84, R80, R81: every row decodes by its pattern with its operand fields in place, every operand at every value; the
word is written as a number, from the pattern alone. The patterns are from general knowledge (log 7). -/
def Obligations.EveryRowDecodesByItsPattern : Prop :=
  ∀ (x y : Reg) (kk : Byte) (nnn : Addr12) (n : Nibble),
    decodeWord 0x00E0#16 = .ok .cls ∧ decodeWord 0x00EE#16 = .ok .ret ∧
    (nnn ≠ 0x0E0#12 → nnn ≠ 0x0EE#12 → decodeWord (BitVec.ofNat 16 nnn.toNat) = .ok (.sys nnn)) ∧
    decodeWord (BitVec.ofNat 16 (0x1000 + nnn.toNat)) = .ok (.jp nnn) ∧
    decodeWord (BitVec.ofNat 16 (0x2000 + nnn.toNat)) = .ok (.call nnn) ∧
    decodeWord (BitVec.ofNat 16 (0x3000 + x.val * 0x100 + kk.toNat)) = .ok (.seImm x kk) ∧
    decodeWord (BitVec.ofNat 16 (0x4000 + x.val * 0x100 + kk.toNat)) = .ok (.sneImm x kk) ∧
    decodeWord (BitVec.ofNat 16 (0x5000 + x.val * 0x100 + y.val * 0x10)) = .ok (.seReg x y) ∧
    decodeWord (BitVec.ofNat 16 (0x6000 + x.val * 0x100 + kk.toNat)) = .ok (.ldImm x kk) ∧
    decodeWord (BitVec.ofNat 16 (0x7000 + x.val * 0x100 + kk.toNat)) = .ok (.addImm x kk) ∧
    decodeWord (BitVec.ofNat 16 (0x8000 + x.val * 0x100 + y.val * 0x10)) = .ok (.ldReg x y) ∧
    decodeWord (BitVec.ofNat 16 (0x8001 + x.val * 0x100 + y.val * 0x10)) = .ok (.orReg x y) ∧
    decodeWord (BitVec.ofNat 16 (0x8002 + x.val * 0x100 + y.val * 0x10)) = .ok (.andReg x y) ∧
    decodeWord (BitVec.ofNat 16 (0x8003 + x.val * 0x100 + y.val * 0x10)) = .ok (.xorReg x y) ∧
    decodeWord (BitVec.ofNat 16 (0x8004 + x.val * 0x100 + y.val * 0x10)) = .ok (.addReg x y) ∧
    decodeWord (BitVec.ofNat 16 (0x8005 + x.val * 0x100 + y.val * 0x10)) = .ok (.subReg x y) ∧
    decodeWord (BitVec.ofNat 16 (0x8006 + x.val * 0x100 + y.val * 0x10)) = .ok (.shr x y) ∧
    decodeWord (BitVec.ofNat 16 (0x8007 + x.val * 0x100 + y.val * 0x10)) = .ok (.subnReg x y) ∧
    decodeWord (BitVec.ofNat 16 (0x800E + x.val * 0x100 + y.val * 0x10)) = .ok (.shl x y) ∧
    decodeWord (BitVec.ofNat 16 (0x9000 + x.val * 0x100 + y.val * 0x10)) = .ok (.sneReg x y) ∧
    decodeWord (BitVec.ofNat 16 (0xA000 + nnn.toNat)) = .ok (.ldI nnn) ∧
    decodeWord (BitVec.ofNat 16 (0xB000 + nnn.toNat)) = .ok (.jpV0 nnn) ∧
    decodeWord (BitVec.ofNat 16 (0xC000 + x.val * 0x100 + kk.toNat)) = .ok (.rnd x kk) ∧
    decodeWord (BitVec.ofNat 16 (0xD000 + x.val * 0x100 + y.val * 0x10 + n.toNat)) = .ok (.drw x y n) ∧
    decodeWord (BitVec.ofNat 16 (0xE09E + x.val * 0x100)) = .ok (.skp x) ∧
    decodeWord (BitVec.ofNat 16 (0xE0A1 + x.val * 0x100)) = .ok (.sknp x) ∧
    decodeWord (BitVec.ofNat 16 (0xF007 + x.val * 0x100)) = .ok (.ldFromDt x) ∧
    decodeWord (BitVec.ofNat 16 (0xF00A + x.val * 0x100)) = .ok (.ldKey x) ∧
    decodeWord (BitVec.ofNat 16 (0xF015 + x.val * 0x100)) = .ok (.ldToDt x) ∧
    decodeWord (BitVec.ofNat 16 (0xF018 + x.val * 0x100)) = .ok (.ldToSt x) ∧
    decodeWord (BitVec.ofNat 16 (0xF01E + x.val * 0x100)) = .ok (.addI x) ∧
    decodeWord (BitVec.ofNat 16 (0xF029 + x.val * 0x100)) = .ok (.ldF x) ∧
    decodeWord (BitVec.ofNat 16 (0xF033 + x.val * 0x100)) = .ok (.ldB x) ∧
    decodeWord (BitVec.ofNat 16 (0xF055 + x.val * 0x100)) = .ok (.stRegs x) ∧
    decodeWord (BitVec.ofNat 16 (0xF065 + x.val * 0x100)) = .ok (.ldRegs x)

/-- R87: which words are unrecognized, class by class, and what a step that fetches one does: it reports, the pc stays
advanced, the timer tick applies, and nothing else changes. -/
def Obligations.UnrecognizedWordsAreReportedAndIgnored : Prop :=
  (∀ w : Half, (∃ u, decodeWord w = .error u) ↔
    (w.toNat / 0x1000 = 0x5 ∧ w.toNat % 0x10 ≠ 0) ∨
    (w.toNat / 0x1000 = 0x8 ∧ w.toNat % 0x10 ∈ [0x8, 0x9, 0xA, 0xB, 0xC, 0xD, 0xF]) ∨
    (w.toNat / 0x1000 = 0x9 ∧ w.toNat % 0x10 ≠ 0) ∨
    (w.toNat / 0x1000 = 0xE ∧ w.toNat % 0x100 ∉ [0x9E, 0xA1]) ∨
    (w.toNat / 0x1000 = 0xF ∧ w.toNat % 0x100 ∉ [0x07, 0x0A, 0x15, 0x18, 0x1E, 0x29, 0x33, 0x55, 0x65])) ∧
  (∀ (s : State) (w : Half) (u : Unrecognized), s.status = .running → NextWord s w → decodeWord w = .error u →
    ∃ t, step s = .next t ∧ t.event = .unknownOpcode s.pc w ∧ t.pc = s.pc + 2#16 ∧
      TicksTo s.tickIn s.dt t.dt ∧ TicksTo s.tickIn s.st t.st ∧
      OnlyChanges noReg [.pc, .event, .dt, .st, .supply] s t)

/-! ## The step -/

/-- R100: where the bytes at the pc decode to `i`, a step of a running block is `exec i` on the state with the event
cleared; a completed instruction is followed by the timer tick, a faulted one is not; each Step call uses up one input
(log 2); no instruction is refused. -/
def Obligations.StepRunsTheDecodedInstruction : Prop :=
  ∀ (s : State) (i : Instr), s.status = .running → NextInstr s i →
    (∀ u, exec i { s with event := .none } = .next u → u.status = .running →
      ∃ t, step s = .next t ∧ TicksTo u.tickIn u.dt t.dt ∧ TicksTo u.tickIn u.st t.st ∧
        t.inputs = u.inputs.tail ∧ t.stepNo = u.stepNo + 1 ∧ OnlyChanges noReg [.dt, .st, .supply] u t) ∧
    (∀ u c n, exec i { s with event := .none } = .next u → u.status = .faulted c n →
      ∃ t, step s = .next t ∧
        t.inputs = u.inputs.tail ∧ t.stepNo = u.stepNo + 1 ∧ OnlyChanges noReg [.supply] u t) ∧
    (∀ f, exec i { s with event := .none } = .fault f → step s = .fault f) ∧
    (∀ r, exec i { s with event := .none } ≠ .refused r)

/-- R250: over a whole step that does not fault, DT and ST end one tick below what the instruction left in them, which is
V[X] for FX15 and FX18 and the old value for everything else. The last clause is the model's choice (log 1, DESIGN
CHOICE): `tick` is the first input the host laid out. -/
def Obligations.TimersTickTogetherAtTheEndOfTheStep : Prop :=
  ∀ s t : State, s.status = .running → step s = .next t → t.status = .running →
    (∀ x, NextInstr s (.ldToDt x) → TicksTo s.tickIn (s.readV x) t.dt) ∧
    ((¬ ∃ x, NextInstr s (.ldToDt x)) → TicksTo s.tickIn s.dt t.dt) ∧
    (∀ x, NextInstr s (.ldToSt x) → TicksTo s.tickIn (s.readV x) t.st) ∧
    ((¬ ∃ x, NextInstr s (.ldToSt x)) → TicksTo s.tickIn s.st t.st) ∧
    (∀ inp rest, s.inputs = inp :: rest → s.tickIn = inp.tick)

/-- R231: fault entry changes STATUS and nothing else; the step's event is None and its tick does not happen. -/
def Obligations.FaultEntryChangesOnlyStatus : Prop :=
  ∀ (s t : State) (c : FaultCause) (n : Nat), s.status = .running → step s = .next t → t.status = .faulted c n →
    t.event = .none ∧ OnlyChanges noReg [.status, .event, .supply] s t

/-- R230, R234: a step raises exactly the faults of the table, with the table's cause, code and info; no other condition
faults. -/
def Obligations.StepFaultsExactlyByTheFaultTable : Prop :=
  (∀ (s t : State) (c : FaultCause) (n : Nat), s.status = .running → step s = .next t →
    (t.status = .faulted c n ↔ FaultDue s c n)) ∧
  [FaultCause.fetchOutOfRange, .memReadOutOfRange, .memWriteOutOfRange, .stackOverflow, .stackUnderflow,
    .fontWrite].map FaultCause.code = [1, 2, 3, 4, 5, 6]

/-- R230 row 1, R231: a fetch above 0xFFE. -/
def Obligations.FetchAboveTheLastPairFaults : Prop :=
  ∀ s : State, s.status = .running → 0xFFE < s.pc.toNat →
    ∃ t, step s = .next t ∧ t.status = .faulted .fetchOutOfRange s.pc.toNat ∧ t.event = .none ∧
      OnlyChanges noReg [.status, .event, .supply] s t

/-- R233: a step of a faulted block changes nothing, no operation but Reset clears the fault, and Reset makes the block run
again. What LoadROM, SetKey and the display read do is stated for every STATUS in their own statements. -/
def Obligations.FaultedBlockIsQuiescent : Prop :=
  ∀ (font : Config.Font) (s : State) (c : FaultCause) (n : Nat), s.status = .faulted c n →
    (∃ t, step s = .next t ∧ t.event = .none ∧ OnlyChanges noReg [.event, .supply] s t) ∧
    (∀ op t answer, op ≠ .reset → s.hostOp font op = .next (t, answer) → t.status = .faulted c n) ∧
    (∃ t, s.hostOp font .reset = .next (t, .nothing) ∧ t.status = .running)

/-- No step of a block whose SP is legal stops: it answers a next state (R26, R231; a stop needs SP > 16, log 5). -/
def Obligations.EveryStepWithALegalStackPointerAnswersNext : Prop :=
  ∀ s : State, s.sp.toNat ≤ 16 → ∃ t, step s = .next t

/-- The model's own stop (log 5): CALL and RET with an SP above 16, which no run reaches. -/
def Obligations.StackPointerAboveSixteenStopsCallAndRet : Prop :=
  ∀ (s : State) (nnn : Addr12), 16 < s.sp.toNat →
    exec (.call nnn) s = .fault .stackPointerOutOfRange ∧ exec .ret s = .fault .stackPointerOutOfRange

/-! ## The invariant -/

/-- The invariant holds right after reset, for every FONT (R7) and so for the default one. -/
def Obligations.InvariantHoldsAtReset : Prop :=
  (∀ font : Config.Font, Inv font (State.resetWith font)) ∧ Inv defaultFont State.reset

/-- Every step keeps the invariant: memory canonical, the fontset immutable, SP in 0..16, stack entries at most 0x1000, PC
at most 0x10FE, STATUS truthful (R25, R26, R54, R230). -/
def Obligations.EveryStepKeepsTheInvariant : Prop :=
  ∀ (font : Config.Font) (s t : State), Inv font s → step s = .next t → Inv font t

/-- Every host operation, in any order, keeps the invariant. -/
def Obligations.EveryHostOperationKeepsTheInvariant : Prop :=
  ∀ (font : Config.Font) (s t : State) (op : HostOp) (answer : HostAnswer), Inv font s →
    s.hostOp font op = .next (t, answer) → Inv font t

/-! ## Control flow -/

/-- R120: SYS reports and only advances the pc. -/
def Obligations.SysReportsAndAdvances : Prop :=
  ∀ (nnn : Addr12) (s : State), ∃ t, exec (.sys nnn) s = .next t ∧
    t.event = .unknownOpcode s.pc (0x0#4 ++ nnn) ∧ t.pc = s.pc + 2#16 ∧ OnlyChanges noReg [.pc, .event] s t

/-- R121: JP. -/
def Obligations.JpSetsThePcToTheAddress : Prop :=
  ∀ (nnn : Addr12) (s : State), ∃ t, exec (.jp nnn) s = .next t ∧ t.pc.toNat = nnn.toNat ∧
    OnlyChanges noReg [.pc] s t

/-- R122: CALL pushes the address after it, or faults on a full stack. -/
def Obligations.CallPushesTheReturnAddress : Prop :=
  ∀ (nnn : Addr12) (s : State),
    (s.sp.toNat < 16 → ∃ t, exec (.call nnn) s = .next t ∧
      (∀ j : Fin 16, t.readStack j = if j.val = s.sp.toNat then s.pc + 2#16 else s.readStack j) ∧
      t.sp.toNat = s.sp.toNat + 1 ∧ t.pc.toNat = nnn.toNat ∧ OnlyChanges noReg [.pc, .sp, .stack] s t) ∧
    (s.sp.toNat = 16 → EntersFault (exec (.call nnn) s) s .stackOverflow 16)

/-- R124: RET pops the return address and leaves the entry, or faults on an empty stack. -/
def Obligations.RetPopsTheReturnAddress : Prop :=
  ∀ s : State,
    (∀ j : Fin 16, s.sp.toNat = j.val + 1 → ∃ t, exec .ret s = .next t ∧
      t.sp.toNat = j.val ∧ t.pc = s.readStack j ∧ OnlyChanges noReg [.pc, .sp] s t) ∧
    (s.sp.toNat = 0 → EntersFault (exec .ret s) s .stackUnderflow 0)

/-- R125 to R128: the four compare-and-skip instructions. -/
def Obligations.CompareSkipsAddTwoWhenTaken : Prop :=
  ∀ (x y : Reg) (kk : Byte) (s : State),
    (∃ t, exec (.seImm x kk) s = .next t ∧
      t.pc = (if s.readV x = kk then s.pc + 4#16 else s.pc + 2#16) ∧ OnlyChanges noReg [.pc] s t) ∧
    (∃ t, exec (.sneImm x kk) s = .next t ∧
      t.pc = (if s.readV x ≠ kk then s.pc + 4#16 else s.pc + 2#16) ∧ OnlyChanges noReg [.pc] s t) ∧
    (∃ t, exec (.seReg x y) s = .next t ∧
      t.pc = (if s.readV x = s.readV y then s.pc + 4#16 else s.pc + 2#16) ∧ OnlyChanges noReg [.pc] s t) ∧
    (∃ t, exec (.sneReg x y) s = .next t ∧
      t.pc = (if s.readV x ≠ s.readV y then s.pc + 4#16 else s.pc + 2#16) ∧ OnlyChanges noReg [.pc] s t)

/-- R129: the offset register of JP V0 is V[NNN[11:8]], and the target is not masked. -/
def Obligations.JpV0AddsTheRegisterOfTheHighNibble : Prop :=
  ∀ (nnn : Addr12) (x : Reg) (s : State), x.val = nnn.toNat / 0x100 →
    ∃ t, exec (.jpV0 nnn) s = .next t ∧ t.pc.toNat = nnn.toNat + (s.readV x).toNat ∧ OnlyChanges noReg [.pc] s t

/-! ## Register loads, ALU and random -/

/-- R140, R142: the two register loads. -/
def Obligations.LoadsCopyTheImmediateOrTheRegister : Prop :=
  ∀ (x y : Reg) (kk : Byte) (s : State),
    (∃ t, exec (.ldImm x kk) s = .next t ∧ t.readV x = kk ∧ t.pc = s.pc + 2#16 ∧ OnlyChanges (· = x) [.pc] s t) ∧
    (∃ t, exec (.ldReg x y) s = .next t ∧ t.readV x = s.readV y ∧ t.pc = s.pc + 2#16 ∧
      OnlyChanges (· = x) [.pc] s t)

/-- R141: ADD Vx, KK wraps at 256 and writes no flag. -/
def Obligations.AddImmWrapsAndWritesNoFlag : Prop :=
  ∀ (x : Reg) (kk : Byte) (s : State), ∃ t, exec (.addImm x kk) s = .next t ∧
    (t.readV x).toNat = ((s.readV x).toNat + kk.toNat) % 256 ∧ t.pc = s.pc + 2#16 ∧ OnlyChanges (· = x) [.pc] s t

/-- R143, R144, R145: the bitwise operations clear VF, also when X = F. -/
def Obligations.BitwiseOperationsClearTheFlag : Prop :=
  ∀ (x y : Reg) (s : State),
    (∃ t, exec (.orReg x y) s = .next t ∧ (x ≠ VF → t.readV x = s.readV x ||| s.readV y) ∧ t.readV VF = 0#8 ∧
      t.pc = s.pc + 2#16 ∧ OnlyChanges (fun r => r = x ∨ r = VF) [.pc] s t) ∧
    (∃ t, exec (.andReg x y) s = .next t ∧ (x ≠ VF → t.readV x = s.readV x &&& s.readV y) ∧ t.readV VF = 0#8 ∧
      t.pc = s.pc + 2#16 ∧ OnlyChanges (fun r => r = x ∨ r = VF) [.pc] s t) ∧
    (∃ t, exec (.xorReg x y) s = .next t ∧ (x ≠ VF → t.readV x = s.readV x ^^^ s.readV y) ∧ t.readV VF = 0#8 ∧
      t.pc = s.pc + 2#16 ∧ OnlyChanges (fun r => r = x ∨ r = VF) [.pc] s t)

/-- R146: ADD Vx, Vy, with the carry; with X = F, VF is the carry. -/
def Obligations.AddRegWrapsAndSetsCarry : Prop :=
  ∀ (x y : Reg) (s : State), ∃ t, exec (.addReg x y) s = .next t ∧
    (x ≠ VF → (t.readV x).toNat = ((s.readV x).toNat + (s.readV y).toNat) % 256) ∧
    t.readV VF = (if (s.readV x).toNat + (s.readV y).toNat > 255 then 1#8 else 0#8) ∧
    t.pc = s.pc + 2#16 ∧ OnlyChanges (fun r => r = x ∨ r = VF) [.pc] s t

/-- R147, R149: SUB and SUBN, with the no-borrow flag; equality is no borrow. -/
def Obligations.SubtractsWrapAndSetNoBorrow : Prop :=
  ∀ (x y : Reg) (s : State),
    (∃ t, exec (.subReg x y) s = .next t ∧
      (x ≠ VF → (t.readV x).toNat = ((s.readV x).toNat + 256 - (s.readV y).toNat) % 256) ∧
      t.readV VF = (if (s.readV y).toNat ≤ (s.readV x).toNat then 1#8 else 0#8) ∧
      t.pc = s.pc + 2#16 ∧ OnlyChanges (fun r => r = x ∨ r = VF) [.pc] s t) ∧
    (∃ t, exec (.subnReg x y) s = .next t ∧
      (x ≠ VF → (t.readV x).toNat = ((s.readV y).toNat + 256 - (s.readV x).toNat) % 256) ∧
      t.readV VF = (if (s.readV x).toNat ≤ (s.readV y).toNat then 1#8 else 0#8) ∧
      t.pc = s.pc + 2#16 ∧ OnlyChanges (fun r => r = x ∨ r = VF) [.pc] s t)

/-- R148, R150: the shifts move V[X] by one bit into VF, and Y is not read. -/
def Obligations.ShiftsMoveOneBitIntoTheFlag : Prop :=
  ∀ (x y : Reg) (s : State),
    (∃ t, exec (.shr x y) s = .next t ∧ (x ≠ VF → (t.readV x).toNat = (s.readV x).toNat / 2) ∧
      (t.readV VF).toNat = (s.readV x).toNat % 2 ∧
      t.pc = s.pc + 2#16 ∧ OnlyChanges (fun r => r = x ∨ r = VF) [.pc] s t) ∧
    (∃ t, exec (.shl x y) s = .next t ∧ (x ≠ VF → (t.readV x).toNat = (s.readV x).toNat * 2 % 256) ∧
      (t.readV VF).toNat = (s.readV x).toNat / 128 ∧
      t.pc = s.pc + 2#16 ∧ OnlyChanges (fun r => r = x ∨ r = VF) [.pc] s t) ∧
    (∀ y', exec (.shr x y') s = exec (.shr x y) s ∧ exec (.shl x y') s = exec (.shl x y) s)

/-- R151: RND masks the step's random byte, whatever that byte is. That the byte is the first input the host laid out, where
there is one, is the model's choice (log 1, DESIGN CHOICE). -/
def Obligations.RndMasksTheStepsRandomByte : Prop :=
  ∀ (x : Reg) (kk : Byte) (s : State), ∃ t, exec (.rnd x kk) s = .next t ∧
    t.readV x = s.rndIn &&& kk ∧ (∀ inp rest, s.inputs = inp :: rest → t.readV x = inp.rnd &&& kk) ∧
    t.pc = s.pc + 2#16 ∧ OnlyChanges (· = x) [.pc] s t

/-! ## Index register and memory transfer -/

/-- R170, R171, R172: the three instructions that only set I. -/
def Obligations.IndexInstructionsSetTheIndex : Prop :=
  ∀ (x : Reg) (nnn : Addr12) (s : State),
    (∃ t, exec (.ldI nnn) s = .next t ∧ t.i.toNat = nnn.toNat ∧ t.pc = s.pc + 2#16 ∧
      OnlyChanges noReg [.pc, .i] s t) ∧
    (∃ t, exec (.addI x) s = .next t ∧ t.i.toNat = (s.i.toNat + (s.readV x).toNat) % 0x10000 ∧
      t.pc = s.pc + 2#16 ∧ OnlyChanges noReg [.pc, .i] s t) ∧
    (∃ t, exec (.ldF x) s = .next t ∧ t.i.toNat = 0x050 + (s.readV x).toNat % 16 * 5 ∧
      t.pc = s.pc + 2#16 ∧ OnlyChanges noReg [.pc, .i] s t)

/-- R173: LD B stores the three decimal digits at I, or faults with nothing written; I is not changed. -/
def Obligations.LdBStoresTheDecimalDigits : Prop :=
  ∀ (x : Reg) (s : State),
    (CanWrite s 3 → ∃ t, exec (.ldB x) s = .next t ∧
      (Memory.read t.mem (s.dataAddr 0)).toNat = (s.readV x).toNat / 100 ∧
      (Memory.read t.mem (s.dataAddr 1)).toNat = (s.readV x).toNat / 10 % 10 ∧
      (Memory.read t.mem (s.dataAddr 2)).toNat = (s.readV x).toNat % 10 ∧
      (∀ a, OutsideAccess s 3 a → Memory.read t.mem a = Memory.read s.mem a) ∧
      t.pc = s.pc + 2#16 ∧ OnlyChanges noReg [.pc, .mem] s t) ∧
    (∀ a, FirstBad BadWrite s 3 a → 0xFFF < a → EntersFault (exec (.ldB x) s) s .memWriteOutOfRange a) ∧
    (∀ a, FirstBad BadWrite s 3 a → a ≤ 0xFFF → EntersFault (exec (.ldB x) s) s .fontWrite a)

/-- R174: FX55 stores V0 to V[X] at I upward and adds X + 1 to I, or faults with nothing written. -/
def Obligations.StRegsStoresTheFirstRegisters : Prop :=
  ∀ (x : Reg) (s : State),
    (CanWrite s (x.val + 1) → ∃ t, exec (.stRegs x) s = .next t ∧
      (∀ k : Reg, k ≤ x → Memory.read t.mem (s.dataAddr k.val) = s.readV k) ∧
      (∀ a, OutsideAccess s (x.val + 1) a → Memory.read t.mem a = Memory.read s.mem a) ∧
      t.i.toNat = (s.i.toNat + x.val + 1) % 0x10000 ∧
      t.pc = s.pc + 2#16 ∧ OnlyChanges noReg [.pc, .i, .mem] s t) ∧
    (∀ a, FirstBad BadWrite s (x.val + 1) a → 0xFFF < a →
      EntersFault (exec (.stRegs x) s) s .memWriteOutOfRange a) ∧
    (∀ a, FirstBad BadWrite s (x.val + 1) a → a ≤ 0xFFF → EntersFault (exec (.stRegs x) s) s .fontWrite a)

/-- R175: FX65 loads V0 to V[X] from I upward and adds X + 1 to I, or faults with nothing loaded. -/
def Obligations.LdRegsLoadsTheFirstRegisters : Prop :=
  ∀ (x : Reg) (s : State),
    (CanRead s (x.val + 1) → ∃ t, exec (.ldRegs x) s = .next t ∧
      (∀ k : Reg, k ≤ x → t.readV k = Memory.read s.mem (s.dataAddr k.val)) ∧
      t.i.toNat = (s.i.toNat + x.val + 1) % 0x10000 ∧
      t.pc = s.pc + 2#16 ∧ OnlyChanges (· ≤ x) [.pc, .i] s t) ∧
    (∀ a, FirstBad BadRead s (x.val + 1) a → EntersFault (exec (.ldRegs x) s) s .memReadOutOfRange a)

/-- R67: a word that FX55 stores is what a fetch at its address reads in the state it leaves. -/
def Obligations.StoredRegistersAreFetchedNext : Prop :=
  ∀ (x k k' : Reg) (s t : State), CanWrite s (x.val + 1) → exec (.stRegs x) s = .next t →
    k'.val = k.val + 1 → k' ≤ x → fetch16 t.mem (s.dataAddr k.val) = .ok (s.readV k ++ s.readV k')

/-- R50, R54, R59: a step changes a byte of memory only by FX33 or FX55, only among the bytes that instruction stores, and
never in the fontset. -/
def Obligations.StepsChangeMemoryOnlyByStores : Prop :=
  ∀ (s t : State) (a : Nat), step s = .next t → Memory.read t.mem a ≠ Memory.read s.mem a →
    ∃ i, NextInstr s i ∧ (∃ k, k < dataWrites i ∧ a = s.dataAddr k) ∧ a ≤ 0xFFF ∧ ¬ (0x050 ≤ a ∧ a ≤ 0x09F)

/-! ## Display -/

/-- R190: CLS. -/
def Obligations.ClsClearsEveryPixel : Prop :=
  ∀ s : State, ∃ t, exec .cls s = .next t ∧ (∀ x y, t.disp.pix x y = false) ∧ t.pc = s.pc + 2#16 ∧
    OnlyChanges noReg [.pc, .disp] s t

/-- R191, R192, R195: DRW inverts exactly the pixels the sprite's 1 bits fall on, wrapping, and VF says whether a lit
pixel went out; a read above 0xFFF faults with nothing drawn. -/
def Obligations.DrwInvertsTheSpritePixelsAndSetsCollision : Prop :=
  ∀ (x y : Reg) (n : Nibble) (s : State),
    (CanRead s n.toNat → ∃ t, exec (.drw x y n) s = .next t ∧
      (∀ px py, SpriteHits s (s.readV x) (s.readV y) n.toNat px py → t.disp.pix px py = !s.disp.pix px py) ∧
      (∀ px py, ¬ SpriteHits s (s.readV x) (s.readV y) n.toNat px py → t.disp.pix px py = s.disp.pix px py) ∧
      ((∃ px py, s.disp.pix px py = true ∧ t.disp.pix px py = false) → t.readV VF = 1#8) ∧
      ((¬ ∃ px py, s.disp.pix px py = true ∧ t.disp.pix px py = false) → t.readV VF = 0#8) ∧
      t.pc = s.pc + 2#16 ∧ OnlyChanges (· = VF) [.pc, .disp] s t) ∧
    (∀ a, FirstBad BadRead s n.toNat a → EntersFault (exec (.drw x y n) s) s .memReadOutOfRange a)

/-- R193: only the origin modulo the grid counts: two states that differ in the coordinate registers alone, and there by
multiples of 64 and 32, draw the same and collide alike. -/
def Obligations.DrwTakesItsOriginModuloTheGrid : Prop :=
  ∀ (x y : Reg) (n : Nibble) (s s' t t' : State), OnlyChanges (fun r => r = x ∨ r = y) [] s s' →
    (s'.readV x).toNat % 64 = (s.readV x).toNat % 64 → (s'.readV y).toNat % 32 = (s.readV y).toNat % 32 →
    exec (.drw x y n) s = .next t → exec (.drw x y n) s' = .next t' →
      (∀ px py, t'.disp.pix px py = t.disp.pix px py) ∧ t'.status = t.status ∧
      (CanRead s n.toNat → t'.readV VF = t.readV VF)

/-- R194, W4: drawing the same sprite twice restores the display, and the second draw collides exactly if the first one lit
a pixel. -/
def Obligations.DrawingTwiceRestoresTheDisplay : Prop :=
  ∀ (x y : Reg) (n : Nibble) (s t u : State), x ≠ VF → y ≠ VF → CanRead s n.toNat →
    exec (.drw x y n) s = .next t → exec (.drw x y n) t = .next u →
    (∀ px py, u.disp.pix px py = s.disp.pix px py) ∧
    (u.readV VF = 1#8 ↔ ∃ px py, s.disp.pix px py = false ∧ t.disp.pix px py = true)

/-- R247: the snapshot, element by element; reading it changes nothing, and it stays valid until a step that completes a CLS
or a DRW. -/
def Obligations.DisplaySnapshotIsRowMajorAndStaysValid : Prop :=
  ∀ (font : Config.Font) (s : State),
    s.hostOp font .readDisplay = .next (s, .snapshot s.readDisplay) ∧ s.readDisplay.length = 2048 ∧
    (∀ (x : Fin 64) (y : Fin 32), s.readDisplay[y.val * 64 + x.val]? = some (s.disp.pix x y)) ∧
    (∀ t, step s = .next t →
      (t.status = .running → ¬ NextInstr s .cls ∧ ∀ x y n, ¬ NextInstr s (.drw x y n)) →
      t.readDisplay = s.readDisplay)

/-! ## Keys and timers -/

/-- R210, R211, R216: the key skips, on V[X] unmasked. -/
def Obligations.KeySkipsTestTheUnmaskedKeyIndex : Prop :=
  ∀ (x : Reg) (s : State),
    (∃ t, exec (.skp x) s = .next t ∧
      ((s.readV x).toNat < 16 ∧ s.keys.getLsbD (s.readV x).toNat = true → t.pc = s.pc + 4#16) ∧
      (¬ ((s.readV x).toNat < 16 ∧ s.keys.getLsbD (s.readV x).toNat = true) → t.pc = s.pc + 2#16) ∧
      OnlyChanges noReg [.pc] s t) ∧
    (∃ t, exec (.sknp x) s = .next t ∧
      ((s.readV x).toNat < 16 ∧ s.keys.getLsbD (s.readV x).toNat = true → t.pc = s.pc + 2#16) ∧
      (¬ ((s.readV x).toNat < 16 ∧ s.keys.getLsbD (s.readV x).toNat = true) → t.pc = s.pc + 4#16) ∧
      OnlyChanges noReg [.pc] s t)

/-- R213: FX0A takes the lowest pressed key, or leaves the pc at itself and changes nothing. -/
def Obligations.KeyWaitTakesTheLowestKeyOrRearms : Prop :=
  ∀ (x : Reg) (s : State),
    (∀ k : Fin 16, s.keys.getLsbD k.val = true → (∀ j : Fin 16, j < k → s.keys.getLsbD j.val = false) →
      ∃ t, exec (.ldKey x) s = .next t ∧ (t.readV x).toNat = k.val ∧ t.pc = s.pc + 2#16 ∧
        OnlyChanges (· = x) [.pc] s t) ∧
    ((∀ k : Fin 16, s.keys.getLsbD k.val = false) →
      ∃ t, exec (.ldKey x) s = .next t ∧ OnlyChanges noReg [] s t)

/-- R212, R214, R215: the timer transfers, before the step's tick. -/
def Obligations.TimerTransfersCopyTheByte : Prop :=
  ∀ (x : Reg) (s : State),
    (∃ t, exec (.ldFromDt x) s = .next t ∧ t.readV x = s.dt ∧ t.pc = s.pc + 2#16 ∧
      OnlyChanges (· = x) [.pc] s t) ∧
    (∃ t, exec (.ldToDt x) s = .next t ∧ t.dt = s.readV x ∧ t.pc = s.pc + 2#16 ∧
      OnlyChanges noReg [.pc, .dt] s t) ∧
    (∃ t, exec (.ldToSt x) s = .next t ∧ t.st = s.readV x ∧ t.pc = s.pc + 2#16 ∧
      OnlyChanges noReg [.pc, .st] s t)

/-! ## Rules of the whole machine -/

/-- R31: no step writes the key state. -/
def Obligations.NoStepWritesTheKeyState : Prop := ∀ s t : State, step s = .next t → t.keys = s.keys

/-- R21: a step changes VF only by the nine instructions with a flag, or by one whose destination registers include
VF. -/
def Obligations.StepsChangeVfOnlyByFlagsOrAsDestination : Prop :=
  ∀ s t : State, step s = .next t → t.readV VF ≠ s.readV VF →
    ∃ x y kk n i, NextInstr s i ∧
      (i ∈ [.orReg x y, .andReg x y, .xorReg x y, .addReg x y, .subReg x y, .subnReg x y, .shr x y, .shl x y,
        .drw x y n] ∨
      i ∈ [.ldImm VF kk, .addImm VF kk, .ldReg VF y, .rnd VF kk, .ldFromDt VF, .ldKey VF, .ldRegs VF])

/-- R23: a step changes I only by the five instructions that write it. -/
def Obligations.StepsChangeTheIndexOnlyByItsWriters : Prop :=
  ∀ s t : State, step s = .next t → t.i ≠ s.i →
    ∃ x nnn i, NextInstr s i ∧ i ∈ [.ldI nnn, .addI x, .ldF x, .stRegs x, .ldRegs x]

/-- R26, R27: a step changes SP by one at most, up by CALL and down by RET, and a stack entry only by CALL at the old
SP. -/
def Obligations.StepsChangeTheStackOnlyByCallAndRet : Prop :=
  ∀ s t : State, step s = .next t →
    (t.sp ≠ s.sp → (∃ nnn, NextInstr s (.call nnn) ∧ t.sp.toNat = s.sp.toNat + 1) ∨
      (NextInstr s .ret ∧ t.sp.toNat + 1 = s.sp.toNat)) ∧
    (∀ j : Fin 16, t.readStack j ≠ s.readStack j → (∃ nnn, NextInstr s (.call nnn)) ∧ j.val = s.sp.toNat)

/-- R24: where a completed step leaves the pc: two past the instruction, or four, or at it, or where a jump, call or
return puts it. -/
def Obligations.StepsMoveThePcByTheListedWays : Prop :=
  ∀ s t : State, s.status = .running → step s = .next t → t.status = .running →
    t.pc = s.pc + 2#16 ∨
    (t.pc = s.pc + 4#16 ∧ ∃ x y kk i, NextInstr s i ∧
      i ∈ [.seImm x kk, .sneImm x kk, .seReg x y, .sneReg x y, .skp x, .sknp x]) ∨
    (t.pc = s.pc ∧ ∃ x, NextInstr s (.ldKey x)) ∨
    (∃ nnn i, NextInstr s i ∧ i ∈ [.jp nnn, .call nnn, .jpV0 nnn, .ret])

/-- R29: nothing a program can observe depends on ST: a block with another ST steps to the same state but for ST. -/
def Obligations.SoundTimerCannotBeObserved : Prop :=
  ∀ (s t : State) (b : Byte), step s = .next t → ∃ b', step { s with st := b } = .next { t with st := b' }

/-- R101: `rnd` is ignored by every instruction but CXKK. -/
def Obligations.RandomByteIsReadOnlyByRnd : Prop :=
  ∀ (s t : State) (tick : Bool) (r r' : Byte), (∀ x kk, ¬ NextInstr s (.rnd x kk)) →
    s.hostStep tick r = .next t → s.hostStep tick r' = .next t

/-! ## Host operations -/

/-- R69: LoadROM stores the whole ROM or nothing, and touches nothing else. -/
def Obligations.LoadRomStoresAllOrNothing : Prop :=
  ∀ (s : State) (bytes : List Byte),
    (3584 < bytes.length → s.loadRom bytes = (.romTooLarge, s)) ∧
    (bytes.length ≤ 3584 → (s.loadRom bytes).1 = .loadOk ∧
      (∀ k b, bytes[k]? = some b → Memory.read (s.loadRom bytes).2.mem (0x200 + k) = b) ∧
      (∀ a, a < 0x200 ∨ 0x200 + bytes.length ≤ a → Memory.read (s.loadRom bytes).2.mem a = Memory.read s.mem a) ∧
      OnlyChanges noReg [.mem] s (s.loadRom bytes).2)

/-- R246: SetKey writes one key bit, or does nothing for an index of 16 or more. -/
def Obligations.SetKeyWritesOneKeyBit : Prop :=
  ∀ (s : State) (key : Nat) (pressed : Bool),
    (16 ≤ key → s.setKey key pressed = s) ∧
    (key < 16 → OnlyChanges noReg [.keys] s (s.setKey key pressed) ∧
      ∀ k, k < 16 → (s.setKey key pressed).keys.getLsbD k = if k = key then pressed else s.keys.getLsbD k)

/-- R273: after Reset and a LoadROM, the block runs and its first instruction word is the ROM's first two bytes. -/
def Obligations.BootRunsTheRomFromItsFirstWord : Prop :=
  ∀ (font : Config.Font) (s : State) (hi lo : Byte) (rest : List Byte), rest.length ≤ 3582 →
    ((s.hostReset font).loadRom (hi :: lo :: rest)).1 = .loadOk ∧
    ((s.hostReset font).loadRom (hi :: lo :: rest)).2.status = .running ∧
    ((s.hostReset font).loadRom (hi :: lo :: rest)).2.pc = 0x200#16 ∧
    NextWord ((s.hostReset font).loadRom (hi :: lo :: rest)).2 (hi ++ lo)
end

