-- ==== Sys2Proof/Laws/Encoding.lean ====
section
/-! SUPPORT. The fields of a word put together from its fields, for the three word shapes of 30_encoding.md R80, and a word
put together again from what is read of it. -/

namespace Sys2Proof

/-- A word is the word of its two bytes. -/
theorem wordOfBytes_high_low (w : Half) : wordOfBytes (highByte w) (lowByte w) = w := by
  apply BitVec.eq_of_getLsbD_eq
  intro i hi
  simp only [wordOfBytes, highByte, lowByte, BitVec.getLsbD_append, BitVec.getLsbD_extractLsb']
  interval_cases i <;> simp

theorem highByte_wordOfBytes (hi lo : Byte) : highByte (wordOfBytes hi lo) = hi := by
  apply BitVec.eq_of_getLsbD_eq
  intro i h
  simp only [wordOfBytes, highByte, BitVec.getLsbD_append, BitVec.getLsbD_extractLsb']
  interval_cases i <;> simp

theorem lowByte_wordOfBytes (hi lo : Byte) : lowByte (wordOfBytes hi lo) = lo := by
  apply BitVec.eq_of_getLsbD_eq
  intro i h
  simp only [wordOfBytes, lowByte, BitVec.getLsbD_append, BitVec.getLsbD_extractLsb']
  interval_cases i <;> simp

/-- The register number of a register's field. -/
@[simp] theorem toFin_regBits (r : Reg) : (regBits r).toFin = r := rfl

@[simp] theorem regBits_toFin (n : Nibble) : regBits n.toFin = n := rfl

/-! ## class, NNN -/

@[simp] theorem wordClass_addr (c : Nibble) (nnn : Addr12) : wordClass (c ++ nnn) = c := by
  apply BitVec.eq_of_getLsbD_eq
  intro i hi
  simp only [wordClass, BitVec.getLsbD_extractLsb', BitVec.getLsbD_append]
  interval_cases i <;> simp

@[simp] theorem fieldNNN_addr (c : Nibble) (nnn : Addr12) : fieldNNN (c ++ nnn) = nnn := by
  apply BitVec.eq_of_getLsbD_eq
  intro i hi
  simp only [fieldNNN, BitVec.getLsbD_extractLsb', BitVec.getLsbD_append]
  interval_cases i <;> simp

theorem addr_of_fields (w : Half) : wordClass w ++ fieldNNN w = w := by
  apply BitVec.eq_of_getLsbD_eq
  intro i hi
  simp only [wordClass, fieldNNN, BitVec.getLsbD_extractLsb', BitVec.getLsbD_append]
  interval_cases i <;> simp

/-! ## class, X, KK -/

@[simp] theorem wordClass_regImm (c x : Nibble) (kk : Byte) : wordClass (c ++ x ++ kk) = c := by
  apply BitVec.eq_of_getLsbD_eq
  intro i hi
  simp only [wordClass, BitVec.getLsbD_extractLsb', BitVec.getLsbD_append]
  interval_cases i <;> simp

@[simp] theorem fieldX_regImm (c x : Nibble) (kk : Byte) : fieldX (c ++ x ++ kk) = x.toFin := by
  unfold fieldX
  congr 1
  apply BitVec.eq_of_getLsbD_eq
  intro i hi
  simp only [BitVec.getLsbD_extractLsb', BitVec.getLsbD_append]
  interval_cases i <;> simp

@[simp] theorem fieldKK_regImm (c x : Nibble) (kk : Byte) : fieldKK (c ++ x ++ kk) = kk := by
  apply BitVec.eq_of_getLsbD_eq
  intro i hi
  simp only [fieldKK, BitVec.getLsbD_extractLsb', BitVec.getLsbD_append]
  interval_cases i <;> simp

theorem regImm_of_fields (w : Half) : wordClass w ++ regBits (fieldX w) ++ fieldKK w = w := by
  simp only [fieldX, regBits_toFin]
  apply BitVec.eq_of_getLsbD_eq
  intro i hi
  simp only [wordClass, fieldKK, BitVec.getLsbD_extractLsb', BitVec.getLsbD_append]
  interval_cases i <;> simp

/-! ## class, X, Y, N -/

@[simp] theorem wordClass_regRegN (c x y n : Nibble) : wordClass (c ++ x ++ y ++ n) = c := by
  apply BitVec.eq_of_getLsbD_eq
  intro i hi
  simp only [wordClass, BitVec.getLsbD_extractLsb', BitVec.getLsbD_append]
  interval_cases i <;> simp

@[simp] theorem fieldX_regRegN (c x y n : Nibble) : fieldX (c ++ x ++ y ++ n) = x.toFin := by
  unfold fieldX
  congr 1
  apply BitVec.eq_of_getLsbD_eq
  intro i hi
  simp only [BitVec.getLsbD_extractLsb', BitVec.getLsbD_append]
  interval_cases i <;> simp

@[simp] theorem fieldY_regRegN (c x y n : Nibble) : fieldY (c ++ x ++ y ++ n) = y.toFin := by
  unfold fieldY
  congr 1
  apply BitVec.eq_of_getLsbD_eq
  intro i hi
  simp only [BitVec.getLsbD_extractLsb', BitVec.getLsbD_append]
  interval_cases i <;> simp

@[simp] theorem fieldN_regRegN (c x y n : Nibble) : fieldN (c ++ x ++ y ++ n) = n := by
  apply BitVec.eq_of_getLsbD_eq
  intro i hi
  simp only [fieldN, BitVec.getLsbD_extractLsb', BitVec.getLsbD_append]
  interval_cases i <;> simp

theorem regRegN_of_fields (w : Half) :
    wordClass w ++ regBits (fieldX w) ++ regBits (fieldY w) ++ fieldN w = w := by
  simp only [fieldX, fieldY, regBits_toFin]
  apply BitVec.eq_of_getLsbD_eq
  intro i hi
  simp only [wordClass, fieldN, BitVec.getLsbD_extractLsb', BitVec.getLsbD_append]
  interval_cases i <;> simp

end Sys2Proof
end

