-- ==== Sys2Proof/Laws/Memory.lean ====
section
/-! SUPPORT. The laws of memory: a read after a write, and that every memory operation keeps the canonical form
`Memory.wf`; then what each access primitive answers (20_memory.md R60 to R63). -/

namespace Sys2Proof.Machine

/-! ## Lookup after insert and erase -/

theorem Memory.lookup_insert (m : Memory) (a b : Nat) (v : Byte) :
    Memory.lookup (Memory.insert m a v) b = if b = a then some v else Memory.lookup m b := by
  induction m with
  | nil => simp [Memory.insert, Memory.lookup, eq_comm]
  | cons c m ih =>
    obtain ⟨k, w⟩ := c
    simp only [Memory.insert]
    split
    · simp [Memory.lookup, eq_comm]
    · split
      · subst a
        by_cases h : b = k <;> simp [Memory.lookup, h, eq_comm]
      · simp only [Memory.lookup, ih]
        by_cases h : k = b
        · subst k
          have : b ≠ a := fun e => by simp_all
          simp [this]
        · simp [h]

theorem Memory.lookup_erase (m : Memory) (a b : Nat) :
    Memory.lookup (Memory.erase m a) b = if b = a then none else Memory.lookup m b := by
  induction m with
  | nil => simp [Memory.erase, Memory.lookup]
  | cons c m ih =>
    obtain ⟨k, w⟩ := c
    by_cases hk : k = a
    · subst k
      by_cases h : b = a
      · rw [Memory.erase, if_pos rfl, ih]
        simp [h]
      · simp [Memory.erase, Memory.lookup, ih, h, Ne.symm h]
    · by_cases h : b = a
      · subst b
        simp [Memory.erase, Memory.lookup, ih, hk]
      · by_cases hb : k = b <;> simp [Memory.erase, Memory.lookup, ih, hk, h, hb]

/-- A byte reads as what was last written to it, and no other byte changes. -/
theorem Memory.read_write (m : Memory) (a b : Nat) (v : Byte) :
    Memory.read (Memory.write m a v) b = if b = a then v else Memory.read m b := by
  unfold Memory.read Memory.write
  split
  · rename_i h
    rw [Memory.lookup_erase]
    by_cases hb : b = a <;> simp [hb, h]
  · rw [Memory.lookup_insert]
    by_cases hb : b = a <;> simp [hb]

/-- Bytes laid out from `a` upward read back one by one, and no other byte changes. -/
theorem Memory.read_writeAll (m : Memory) (a b : Nat) (bs : List Byte) :
    Memory.read (Memory.writeAll m a bs) b =
      if h : a ≤ b ∧ b - a < bs.length then bs[b - a]'h.2 else Memory.read m b := by
  induction bs generalizing m a with
  | nil => simp [Memory.writeAll]
  | cons c bs ih =>
    rw [Memory.writeAll, ih]
    by_cases hb : b = a
    · subst b
      simp [Memory.read_write]
    · by_cases h : a + 1 ≤ b ∧ b - (a + 1) < bs.length
      · have h' : a ≤ b ∧ b - a < (c :: bs).length := by simp only [List.length_cons]; omega
        have e : b - a = (b - (a + 1)) + 1 := by omega
        simp only [h, h', and_self, dite_true]
        simp only [e, List.getElem_cons_succ]
      · have h' : ¬ (a ≤ b ∧ b - a < (c :: bs).length) := by simp only [List.length_cons]; omega
        rw [dif_neg h, dif_neg h', Memory.read_write, if_neg hb]

/-! ## The canonical form -/

theorem Memory.risesFrom_mono {lo lo' : Nat} {m : Memory} (h : Memory.risesFrom lo m = true) (hl : lo' ≤ lo) :
    Memory.risesFrom lo' m = true := by
  cases m with
  | nil => rfl
  | cons c m =>
    simp only [Memory.risesFrom, Bool.and_eq_true, decide_eq_true_eq] at h ⊢
    exact ⟨by omega, h.2⟩

theorem Memory.risesFrom_erase {m : Memory} {lo : Nat} (a : Nat) (h : Memory.risesFrom lo m = true) :
    Memory.risesFrom lo (Memory.erase m a) = true := by
  induction m generalizing lo with
  | nil => rfl
  | cons c m ih =>
    simp only [Memory.risesFrom, Bool.and_eq_true, decide_eq_true_eq] at h
    simp only [Memory.erase]
    split
    · exact Memory.risesFrom_mono (ih h.2) (by omega)
    · simp only [Memory.risesFrom, Bool.and_eq_true, decide_eq_true_eq]
      exact ⟨h.1, ih h.2⟩

theorem Memory.risesFrom_insert {m : Memory} {lo : Nat} (a : Nat) (v : Byte) (h : Memory.risesFrom lo m = true)
    (hl : lo ≤ a) : Memory.risesFrom lo (Memory.insert m a v) = true := by
  induction m generalizing lo with
  | nil => simp [Memory.insert, Memory.risesFrom, hl]
  | cons c m ih =>
    simp only [Memory.risesFrom, Bool.and_eq_true, decide_eq_true_eq] at h
    simp only [Memory.insert]
    split
    · simp only [Memory.risesFrom, Bool.and_eq_true, decide_eq_true_eq]
      exact ⟨hl, by omega, h.2⟩
    · split
      · subst a
        simp only [Memory.risesFrom, Bool.and_eq_true, decide_eq_true_eq]
        exact ⟨hl, h.2⟩
      · simp only [Memory.risesFrom, Bool.and_eq_true, decide_eq_true_eq]
        exact ⟨h.1, ih h.2 (by omega)⟩

/-- A byte that memory lists is a byte that was listed before, or the one inserted. -/
theorem Memory.mem_insert {m : Memory} {a : Nat} {v : Byte} {c : Host.Cell} (h : c ∈ Memory.insert m a v) :
    c = (a, v) ∨ c ∈ m := by
  induction m with
  | nil => simpa [Memory.insert] using h
  | cons d m ih =>
    simp only [Memory.insert] at h
    split at h
    · simpa using h
    · split at h
      · rcases List.mem_cons.1 h with h | h
        · exact .inl h
        · exact .inr (List.mem_cons_of_mem _ h)
      · rcases List.mem_cons.1 h with h | h
        · exact .inr (h ▸ List.mem_cons_self)
        · exact (ih h).imp_right (List.mem_cons_of_mem _)

theorem Memory.mem_erase {m : Memory} {a : Nat} {c : Host.Cell} (h : c ∈ Memory.erase m a) : c ∈ m := by
  induction m with
  | nil => simp [Memory.erase] at h
  | cons d m ih =>
    simp only [Memory.erase] at h
    split at h
    · exact List.mem_cons_of_mem _ (ih h)
    · rcases List.mem_cons.1 h with h | h
      · exact h ▸ List.mem_cons_self
      · exact List.mem_cons_of_mem _ (ih h)

/-- The canonical form, spelt out. -/
theorem Memory.wf_iff (m : Memory) :
    Memory.wf m = true ↔
      Memory.risesFrom 0 m = true ∧ ∀ c ∈ m, c.1 < Config.memSize ∧ c.2 ≠ unlistedByte c.1 := by
  simp [Memory.wf]

/-- Empty memory, the one at reset, is canonical. -/
theorem Memory.wf_nil : Memory.wf [] = true := rfl

/-- A write inside the address space keeps the canonical form. -/
theorem Memory.wf_write {m : Memory} {a : Nat} (v : Byte) (h : Memory.wf m = true) (ha : a < Config.memSize) :
    Memory.wf (Memory.write m a v) = true := by
  rw [Memory.wf_iff] at h ⊢
  unfold Memory.write
  split
  · exact ⟨Memory.risesFrom_erase a h.1, fun c hc => h.2 c (Memory.mem_erase hc)⟩
  · rename_i hv
    refine ⟨Memory.risesFrom_insert a v h.1 (Nat.zero_le a), fun c hc => ?_⟩
    rcases Memory.mem_insert hc with rfl | hc
    · exact ⟨ha, hv⟩
    · exact h.2 c hc

/-- Bytes laid out inside the address space keep the canonical form. -/
theorem Memory.wf_writeAll {m : Memory} {a : Nat} {bs : List Byte} (h : Memory.wf m = true)
    (ha : a + bs.length ≤ Config.memSize) : Memory.wf (Memory.writeAll m a bs) = true := by
  induction bs generalizing m a with
  | nil => exact h
  | cons b bs ih =>
    simp only [List.length_cons] at ha
    exact ih (Memory.wf_write b h (by omega)) (by omega)

/-! ## The access primitives -/

theorem inFontset_iff (a : Nat) : inFontset a = true ↔ 0x050 ≤ a ∧ a ≤ 0x09F := by
  simp only [inFontset, Config.fontBase, Config.fontSize, Bool.and_eq_true, decide_eq_true_eq]
  omega

/-- Everything a read can answer (R60). -/
theorem memRead_cases (m : Memory) (a : Nat) :
    (a ≤ 0xFFF ∧ memRead m a = .ok (Memory.read m a)) ∨
      (0xFFF < a ∧ memRead m a = .error ⟨.memReadOutOfRange, a⟩) := by
  unfold memRead
  split
  · exact .inr ⟨‹_›, rfl⟩
  · exact .inl ⟨by omega, rfl⟩

/-- Everything a write can answer (R61). -/
theorem memWrite_cases (m : Memory) (a : Nat) (v : Byte) :
    (a ≤ 0xFFF ∧ inFontset a = false ∧ memWrite m a v = .ok (Memory.write m a v)) ∨
      (0xFFF < a ∧ memWrite m a v = .error ⟨.memWriteOutOfRange, a⟩) ∨
      (a ≤ 0xFFF ∧ inFontset a = true ∧ memWrite m a v = .error ⟨.fontWrite, a⟩) := by
  unfold memWrite
  split
  · exact .inr (.inl ⟨‹_›, rfl⟩)
  · split
    · exact .inr (.inr ⟨by omega, ‹_›, rfl⟩)
    · exact .inl ⟨by omega, Bool.eq_false_iff.2 ‹_›, rfl⟩

/-- Everything a run of reads can answer: all bytes, or the first failing address (R63). -/
theorem readBytes_cases (m : Memory) (a n : Nat) :
    ((∀ k, k < n → a + k ≤ 0xFFF) ∧ readBytes m a n = .ok ((List.range n).map fun k => Memory.read m (a + k))) ∨
      ∃ k, k < n ∧ 0xFFF < a + k ∧ (∀ j, j < k → a + j ≤ 0xFFF) ∧
        readBytes m a n = .error ⟨.memReadOutOfRange, a + k⟩ := by
  induction n generalizing a with
  | zero => exact .inl ⟨by omega, rfl⟩
  | succ n ih =>
    rcases memRead_cases m a with ⟨ha, h⟩ | ⟨ha, h⟩
    · rcases ih (a + 1) with ⟨hall, hn⟩ | ⟨k, hk, hbad, hgood, hn⟩
      · refine .inl ⟨fun k hk => ?_, ?_⟩
        · rcases k with _ | k
          · simpa using ha
          · have := hall k (by omega)
            omega
        · simp only [readBytes, h, hn, List.range_succ_eq_map, List.map_cons, List.map_map, Nat.add_zero]
          congr 2
          apply List.map_congr_left
          intro k _
          simp [Nat.add_assoc, Nat.add_comm 1 k]
      · refine .inr ⟨k + 1, by omega, by omega, fun j hj => ?_, ?_⟩
        · rcases j with _ | j
          · simpa using ha
          · have := hgood j (by omega)
            omega
        · simp only [readBytes, h, hn]
          congr 2
          omega
    · exact .inr ⟨0, by omega, by simpa using ha, by omega, by simp [readBytes, h]⟩

/-- Everything a run of writes can answer: all of them, or the first failing address (R63, R234). -/
theorem writeBytes_cases (m : Memory) (a : Nat) (bs : List Byte) :
    ((∀ k, k < bs.length → a + k ≤ 0xFFF ∧ inFontset (a + k) = false) ∧
        writeBytes m a bs = .ok (Memory.writeAll m a bs)) ∨
      ∃ k, k < bs.length ∧ (∀ j, j < k → a + j ≤ 0xFFF ∧ inFontset (a + j) = false) ∧
        ((0xFFF < a + k ∧ writeBytes m a bs = .error ⟨.memWriteOutOfRange, a + k⟩) ∨
          (a + k ≤ 0xFFF ∧ inFontset (a + k) = true ∧ writeBytes m a bs = .error ⟨.fontWrite, a + k⟩)) := by
  induction bs generalizing m a with
  | nil => exact .inl ⟨by simp, rfl⟩
  | cons b bs ih =>
    rcases memWrite_cases m a b with ⟨ha, hf, h⟩ | ⟨ha, h⟩ | ⟨ha, hf, h⟩
    · have good : ∀ {k}, (∀ j, j < k → a + 1 + j ≤ 0xFFF ∧ inFontset (a + 1 + j) = false) →
          ∀ j, j < k + 1 → a + j ≤ 0xFFF ∧ inFontset (a + j) = false := by
        intro k hk j hj
        rcases j with _ | j
        · exact ⟨by simpa using ha, by simpa using hf⟩
        · have := hk j (by omega)
          rwa [Nat.add_assoc, Nat.add_comm 1 j] at this
      rcases ih (Memory.write m a b) (a + 1) with ⟨hall, hn⟩ | ⟨k, hk, hgood, hbad⟩
      · exact .inl ⟨good hall, by simp only [writeBytes, h, hn, Memory.writeAll]⟩
      · refine .inr ⟨k + 1, by simpa using hk, good hgood, ?_⟩
        have e : a + (k + 1) = a + 1 + k := by omega
        rw [e]
        simpa only [writeBytes, h] using hbad
    · exact .inr ⟨0, by simp, by omega, .inl ⟨by simpa using ha, by simp [writeBytes, h]⟩⟩
    · exact .inr ⟨0, by simp, by omega, .inr ⟨by simpa using ha, by simpa using hf, by simp [writeBytes, h]⟩⟩

/-! ## Memory reset (20_memory.md R55) -/

/-- Reset memory reads as R55 says, for any `FONT`. -/
theorem read_resetMemory (font : Config.Font) (a : Nat) :
    Memory.read (resetMemory font) a =
      if 0x050 ≤ a ∧ a ≤ 0x09F then fontByte font (a - 0x050) else 0#8 := by
  have len : font.bytes.toList.length = 80 := Vector.length_toList ..
  rw [resetMemory, Memory.read_writeAll]
  by_cases h : 0x050 ≤ a ∧ a ≤ 0x09F
  · have h' : Config.fontBase ≤ a ∧ a - Config.fontBase < font.bytes.toList.length := by
      rw [len]
      exact ⟨h.1, show a - 0x050 < 80 by omega⟩
    rw [dif_pos h', if_pos h, fontByte, List.getD_eq_getElem _ _ h'.2]
  · rw [dif_neg, if_neg h]
    · show (Option.getD none (unlistedByte a)) = 0#8
      rw [Option.getD_none, unlistedByte, if_neg fun w => h ((inFontset_iff a).1 w)]
    · rintro ⟨h1, h2⟩
      rw [len] at h2
      exact h ⟨h1, by have : a - 0x050 < 80 := h2; have : 0x050 ≤ a := h1; omega⟩

/-- The one font byte the source gives (00_scope.md R7). -/
theorem fontByte_five (font : Config.Font) : fontByte font 5 = 0x20#8 := by
  have h : 5 < font.bytes.toList.length := by rw [Vector.length_toList]; decide
  rw [fontByte, List.getD_eq_getElem _ _ h, Vector.getElem_toList]
  exact font.glyph1

/-- Reset memory is canonical, for any `FONT`. -/
theorem resetMemory_wf (font : Config.Font) : Memory.wf (resetMemory font) = true :=
  Memory.wf_writeAll Memory.wf_nil (by rw [Vector.length_toList]; decide)

/-- The default `FONT` lists nothing. -/
theorem resetMemory_defaultFont : resetMemory defaultFont = [] := by decide

/-- An instruction's writes keep the canonical form. -/
theorem writeBytes_wf {m m' : Memory} {a : Nat} {bs : List Byte} (hm : Memory.wf m = true)
    (h : writeBytes m a bs = .ok m') : Memory.wf m' = true := by
  induction bs generalizing m a with
  | nil =>
    cases h
    exact hm
  | cons b bs ih =>
    rcases memWrite_cases m a b with ⟨ha, -, e⟩ | ⟨-, e⟩ | ⟨-, -, e⟩ <;> simp only [writeBytes, e] at h
    · exact ih (Memory.wf_write b hm (by show a < 4096; omega)) h
    · cases h
    · cases h

/-- Everything a fetch can answer (R62). -/
theorem fetch16_cases (m : Memory) (a : Nat) :
    (a ≤ 0xFFE ∧ fetch16 m a = .ok (wordOfBytes (Memory.read m a) (Memory.read m (a + 1)))) ∨
      (0xFFE < a ∧ fetch16 m a = .error ⟨.fetchOutOfRange, a⟩) := by
  unfold fetch16
  split
  · exact .inr ⟨‹_›, rfl⟩
  · exact .inl ⟨by omega, rfl⟩

end Sys2Proof.Machine
end

