-- ==== Sys2Proof/Laws/State.lean ====
section
/-! SUPPORT. One lemma per field per update of State, true by rfl and tagged for simp, so that no proof unfolds a record
update; then what a register, stack entry or pixel reads after a write. -/

namespace Sys2Proof.Machine

/-! ## writeV -/

@[simp] theorem State.writeV_v (s : State) (r : Reg) (b : Byte) : (s.writeV r b).v = s.v.set r b := rfl
@[simp] theorem State.writeV_i (s : State) (r : Reg) (b : Byte) : (s.writeV r b).i = s.i := rfl
@[simp] theorem State.writeV_pc (s : State) (r : Reg) (b : Byte) : (s.writeV r b).pc = s.pc := rfl
@[simp] theorem State.writeV_sp (s : State) (r : Reg) (b : Byte) : (s.writeV r b).sp = s.sp := rfl
@[simp] theorem State.writeV_stack (s : State) (r : Reg) (b : Byte) : (s.writeV r b).stack = s.stack := rfl
@[simp] theorem State.writeV_dt (s : State) (r : Reg) (b : Byte) : (s.writeV r b).dt = s.dt := rfl
@[simp] theorem State.writeV_st (s : State) (r : Reg) (b : Byte) : (s.writeV r b).st = s.st := rfl
@[simp] theorem State.writeV_disp (s : State) (r : Reg) (b : Byte) : (s.writeV r b).disp = s.disp := rfl
@[simp] theorem State.writeV_keys (s : State) (r : Reg) (b : Byte) : (s.writeV r b).keys = s.keys := rfl
@[simp] theorem State.writeV_status (s : State) (r : Reg) (b : Byte) : (s.writeV r b).status = s.status := rfl
@[simp] theorem State.writeV_mem (s : State) (r : Reg) (b : Byte) : (s.writeV r b).mem = s.mem := rfl
@[simp] theorem State.writeV_event (s : State) (r : Reg) (b : Byte) : (s.writeV r b).event = s.event := rfl
@[simp] theorem State.writeV_inputs (s : State) (r : Reg) (b : Byte) : (s.writeV r b).inputs = s.inputs := rfl
@[simp] theorem State.writeV_stepNo (s : State) (r : Reg) (b : Byte) : (s.writeV r b).stepNo = s.stepNo := rfl

/-! ## writeResultThenFlag -/

@[simp] theorem State.writeResultThenFlag_v (s : State) (x : Reg) (b f : Byte) : (s.writeResultThenFlag x b f).v = (s.v.set x b).set 15 f := rfl
@[simp] theorem State.writeResultThenFlag_i (s : State) (x : Reg) (b f : Byte) : (s.writeResultThenFlag x b f).i = s.i := rfl
@[simp] theorem State.writeResultThenFlag_pc (s : State) (x : Reg) (b f : Byte) : (s.writeResultThenFlag x b f).pc = s.pc := rfl
@[simp] theorem State.writeResultThenFlag_sp (s : State) (x : Reg) (b f : Byte) : (s.writeResultThenFlag x b f).sp = s.sp := rfl
@[simp] theorem State.writeResultThenFlag_stack (s : State) (x : Reg) (b f : Byte) : (s.writeResultThenFlag x b f).stack = s.stack := rfl
@[simp] theorem State.writeResultThenFlag_dt (s : State) (x : Reg) (b f : Byte) : (s.writeResultThenFlag x b f).dt = s.dt := rfl
@[simp] theorem State.writeResultThenFlag_st (s : State) (x : Reg) (b f : Byte) : (s.writeResultThenFlag x b f).st = s.st := rfl
@[simp] theorem State.writeResultThenFlag_disp (s : State) (x : Reg) (b f : Byte) : (s.writeResultThenFlag x b f).disp = s.disp := rfl
@[simp] theorem State.writeResultThenFlag_keys (s : State) (x : Reg) (b f : Byte) : (s.writeResultThenFlag x b f).keys = s.keys := rfl
@[simp] theorem State.writeResultThenFlag_status (s : State) (x : Reg) (b f : Byte) : (s.writeResultThenFlag x b f).status = s.status := rfl
@[simp] theorem State.writeResultThenFlag_mem (s : State) (x : Reg) (b f : Byte) : (s.writeResultThenFlag x b f).mem = s.mem := rfl
@[simp] theorem State.writeResultThenFlag_event (s : State) (x : Reg) (b f : Byte) : (s.writeResultThenFlag x b f).event = s.event := rfl
@[simp] theorem State.writeResultThenFlag_inputs (s : State) (x : Reg) (b f : Byte) : (s.writeResultThenFlag x b f).inputs = s.inputs := rfl
@[simp] theorem State.writeResultThenFlag_stepNo (s : State) (x : Reg) (b f : Byte) : (s.writeResultThenFlag x b f).stepNo = s.stepNo := rfl

/-! ## writeI -/

@[simp] theorem State.writeI_v (s : State) (w : Half) : (s.writeI w).v = s.v := rfl
@[simp] theorem State.writeI_i (s : State) (w : Half) : (s.writeI w).i = w := rfl
@[simp] theorem State.writeI_pc (s : State) (w : Half) : (s.writeI w).pc = s.pc := rfl
@[simp] theorem State.writeI_sp (s : State) (w : Half) : (s.writeI w).sp = s.sp := rfl
@[simp] theorem State.writeI_stack (s : State) (w : Half) : (s.writeI w).stack = s.stack := rfl
@[simp] theorem State.writeI_dt (s : State) (w : Half) : (s.writeI w).dt = s.dt := rfl
@[simp] theorem State.writeI_st (s : State) (w : Half) : (s.writeI w).st = s.st := rfl
@[simp] theorem State.writeI_disp (s : State) (w : Half) : (s.writeI w).disp = s.disp := rfl
@[simp] theorem State.writeI_keys (s : State) (w : Half) : (s.writeI w).keys = s.keys := rfl
@[simp] theorem State.writeI_status (s : State) (w : Half) : (s.writeI w).status = s.status := rfl
@[simp] theorem State.writeI_mem (s : State) (w : Half) : (s.writeI w).mem = s.mem := rfl
@[simp] theorem State.writeI_event (s : State) (w : Half) : (s.writeI w).event = s.event := rfl
@[simp] theorem State.writeI_inputs (s : State) (w : Half) : (s.writeI w).inputs = s.inputs := rfl
@[simp] theorem State.writeI_stepNo (s : State) (w : Half) : (s.writeI w).stepNo = s.stepNo := rfl

/-! ## writePc -/

@[simp] theorem State.writePc_v (s : State) (w : Half) : (s.writePc w).v = s.v := rfl
@[simp] theorem State.writePc_i (s : State) (w : Half) : (s.writePc w).i = s.i := rfl
@[simp] theorem State.writePc_pc (s : State) (w : Half) : (s.writePc w).pc = w := rfl
@[simp] theorem State.writePc_sp (s : State) (w : Half) : (s.writePc w).sp = s.sp := rfl
@[simp] theorem State.writePc_stack (s : State) (w : Half) : (s.writePc w).stack = s.stack := rfl
@[simp] theorem State.writePc_dt (s : State) (w : Half) : (s.writePc w).dt = s.dt := rfl
@[simp] theorem State.writePc_st (s : State) (w : Half) : (s.writePc w).st = s.st := rfl
@[simp] theorem State.writePc_disp (s : State) (w : Half) : (s.writePc w).disp = s.disp := rfl
@[simp] theorem State.writePc_keys (s : State) (w : Half) : (s.writePc w).keys = s.keys := rfl
@[simp] theorem State.writePc_status (s : State) (w : Half) : (s.writePc w).status = s.status := rfl
@[simp] theorem State.writePc_mem (s : State) (w : Half) : (s.writePc w).mem = s.mem := rfl
@[simp] theorem State.writePc_event (s : State) (w : Half) : (s.writePc w).event = s.event := rfl
@[simp] theorem State.writePc_inputs (s : State) (w : Half) : (s.writePc w).inputs = s.inputs := rfl
@[simp] theorem State.writePc_stepNo (s : State) (w : Half) : (s.writePc w).stepNo = s.stepNo := rfl

/-! ## advance -/

@[simp] theorem State.advance_v (s : State) : (s.advance).v = s.v := rfl
@[simp] theorem State.advance_i (s : State) : (s.advance).i = s.i := rfl
@[simp] theorem State.advance_pc (s : State) : (s.advance).pc = s.pc + 2#16 := rfl
@[simp] theorem State.advance_sp (s : State) : (s.advance).sp = s.sp := rfl
@[simp] theorem State.advance_stack (s : State) : (s.advance).stack = s.stack := rfl
@[simp] theorem State.advance_dt (s : State) : (s.advance).dt = s.dt := rfl
@[simp] theorem State.advance_st (s : State) : (s.advance).st = s.st := rfl
@[simp] theorem State.advance_disp (s : State) : (s.advance).disp = s.disp := rfl
@[simp] theorem State.advance_keys (s : State) : (s.advance).keys = s.keys := rfl
@[simp] theorem State.advance_status (s : State) : (s.advance).status = s.status := rfl
@[simp] theorem State.advance_mem (s : State) : (s.advance).mem = s.mem := rfl
@[simp] theorem State.advance_event (s : State) : (s.advance).event = s.event := rfl
@[simp] theorem State.advance_inputs (s : State) : (s.advance).inputs = s.inputs := rfl
@[simp] theorem State.advance_stepNo (s : State) : (s.advance).stepNo = s.stepNo := rfl

/-! ## push -/

@[simp] theorem State.push_v (s : State) (j : Fin 16) : (s.push j).v = s.v := rfl
@[simp] theorem State.push_i (s : State) (j : Fin 16) : (s.push j).i = s.i := rfl
@[simp] theorem State.push_pc (s : State) (j : Fin 16) : (s.push j).pc = s.pc := rfl
@[simp] theorem State.push_sp (s : State) (j : Fin 16) : (s.push j).sp = s.sp + 1#8 := rfl
@[simp] theorem State.push_stack (s : State) (j : Fin 16) : (s.push j).stack = s.stack.set j s.pc := rfl
@[simp] theorem State.push_dt (s : State) (j : Fin 16) : (s.push j).dt = s.dt := rfl
@[simp] theorem State.push_st (s : State) (j : Fin 16) : (s.push j).st = s.st := rfl
@[simp] theorem State.push_disp (s : State) (j : Fin 16) : (s.push j).disp = s.disp := rfl
@[simp] theorem State.push_keys (s : State) (j : Fin 16) : (s.push j).keys = s.keys := rfl
@[simp] theorem State.push_status (s : State) (j : Fin 16) : (s.push j).status = s.status := rfl
@[simp] theorem State.push_mem (s : State) (j : Fin 16) : (s.push j).mem = s.mem := rfl
@[simp] theorem State.push_event (s : State) (j : Fin 16) : (s.push j).event = s.event := rfl
@[simp] theorem State.push_inputs (s : State) (j : Fin 16) : (s.push j).inputs = s.inputs := rfl
@[simp] theorem State.push_stepNo (s : State) (j : Fin 16) : (s.push j).stepNo = s.stepNo := rfl

/-! ## pop -/

@[simp] theorem State.pop_v (s : State) (j : Fin 16) : (s.pop j).v = s.v := rfl
@[simp] theorem State.pop_i (s : State) (j : Fin 16) : (s.pop j).i = s.i := rfl
@[simp] theorem State.pop_pc (s : State) (j : Fin 16) : (s.pop j).pc = s.readStack j := rfl
@[simp] theorem State.pop_sp (s : State) (j : Fin 16) : (s.pop j).sp = s.sp - 1#8 := rfl
@[simp] theorem State.pop_stack (s : State) (j : Fin 16) : (s.pop j).stack = s.stack := rfl
@[simp] theorem State.pop_dt (s : State) (j : Fin 16) : (s.pop j).dt = s.dt := rfl
@[simp] theorem State.pop_st (s : State) (j : Fin 16) : (s.pop j).st = s.st := rfl
@[simp] theorem State.pop_disp (s : State) (j : Fin 16) : (s.pop j).disp = s.disp := rfl
@[simp] theorem State.pop_keys (s : State) (j : Fin 16) : (s.pop j).keys = s.keys := rfl
@[simp] theorem State.pop_status (s : State) (j : Fin 16) : (s.pop j).status = s.status := rfl
@[simp] theorem State.pop_mem (s : State) (j : Fin 16) : (s.pop j).mem = s.mem := rfl
@[simp] theorem State.pop_event (s : State) (j : Fin 16) : (s.pop j).event = s.event := rfl
@[simp] theorem State.pop_inputs (s : State) (j : Fin 16) : (s.pop j).inputs = s.inputs := rfl
@[simp] theorem State.pop_stepNo (s : State) (j : Fin 16) : (s.pop j).stepNo = s.stepNo := rfl

/-! ## takeFault -/

@[simp] theorem State.takeFault_v (s : State) (r : Raised) : (s.takeFault r).v = s.v := rfl
@[simp] theorem State.takeFault_i (s : State) (r : Raised) : (s.takeFault r).i = s.i := rfl
@[simp] theorem State.takeFault_pc (s : State) (r : Raised) : (s.takeFault r).pc = s.pc := rfl
@[simp] theorem State.takeFault_sp (s : State) (r : Raised) : (s.takeFault r).sp = s.sp := rfl
@[simp] theorem State.takeFault_stack (s : State) (r : Raised) : (s.takeFault r).stack = s.stack := rfl
@[simp] theorem State.takeFault_dt (s : State) (r : Raised) : (s.takeFault r).dt = s.dt := rfl
@[simp] theorem State.takeFault_st (s : State) (r : Raised) : (s.takeFault r).st = s.st := rfl
@[simp] theorem State.takeFault_disp (s : State) (r : Raised) : (s.takeFault r).disp = s.disp := rfl
@[simp] theorem State.takeFault_keys (s : State) (r : Raised) : (s.takeFault r).keys = s.keys := rfl
@[simp] theorem State.takeFault_status (s : State) (r : Raised) : (s.takeFault r).status = .faulted r.cause r.info := rfl
@[simp] theorem State.takeFault_mem (s : State) (r : Raised) : (s.takeFault r).mem = s.mem := rfl
@[simp] theorem State.takeFault_event (s : State) (r : Raised) : (s.takeFault r).event = s.event := rfl
@[simp] theorem State.takeFault_inputs (s : State) (r : Raised) : (s.takeFault r).inputs = s.inputs := rfl
@[simp] theorem State.takeFault_stepNo (s : State) (r : Raised) : (s.takeFault r).stepNo = s.stepNo := rfl

/-! ## consumeInput -/

@[simp] theorem State.consumeInput_v (s : State) : (s.consumeInput).v = s.v := rfl
@[simp] theorem State.consumeInput_i (s : State) : (s.consumeInput).i = s.i := rfl
@[simp] theorem State.consumeInput_pc (s : State) : (s.consumeInput).pc = s.pc := rfl
@[simp] theorem State.consumeInput_sp (s : State) : (s.consumeInput).sp = s.sp := rfl
@[simp] theorem State.consumeInput_stack (s : State) : (s.consumeInput).stack = s.stack := rfl
@[simp] theorem State.consumeInput_dt (s : State) : (s.consumeInput).dt = s.dt := rfl
@[simp] theorem State.consumeInput_st (s : State) : (s.consumeInput).st = s.st := rfl
@[simp] theorem State.consumeInput_disp (s : State) : (s.consumeInput).disp = s.disp := rfl
@[simp] theorem State.consumeInput_keys (s : State) : (s.consumeInput).keys = s.keys := rfl
@[simp] theorem State.consumeInput_status (s : State) : (s.consumeInput).status = s.status := rfl
@[simp] theorem State.consumeInput_mem (s : State) : (s.consumeInput).mem = s.mem := rfl
@[simp] theorem State.consumeInput_event (s : State) : (s.consumeInput).event = s.event := rfl
@[simp] theorem State.consumeInput_inputs (s : State) : (s.consumeInput).inputs = s.inputs.tail := rfl
@[simp] theorem State.consumeInput_stepNo (s : State) : (s.consumeInput).stepNo = s.stepNo + 1 := rfl

/-! ## beginStep -/

@[simp] theorem State.beginStep_v (s : State) : (s.beginStep).v = s.v := rfl
@[simp] theorem State.beginStep_i (s : State) : (s.beginStep).i = s.i := rfl
@[simp] theorem State.beginStep_pc (s : State) : (s.beginStep).pc = s.pc := rfl
@[simp] theorem State.beginStep_sp (s : State) : (s.beginStep).sp = s.sp := rfl
@[simp] theorem State.beginStep_stack (s : State) : (s.beginStep).stack = s.stack := rfl
@[simp] theorem State.beginStep_dt (s : State) : (s.beginStep).dt = s.dt := rfl
@[simp] theorem State.beginStep_st (s : State) : (s.beginStep).st = s.st := rfl
@[simp] theorem State.beginStep_disp (s : State) : (s.beginStep).disp = s.disp := rfl
@[simp] theorem State.beginStep_keys (s : State) : (s.beginStep).keys = s.keys := rfl
@[simp] theorem State.beginStep_status (s : State) : (s.beginStep).status = s.status := rfl
@[simp] theorem State.beginStep_mem (s : State) : (s.beginStep).mem = s.mem := rfl
@[simp] theorem State.beginStep_event (s : State) : (s.beginStep).event = .none := rfl
@[simp] theorem State.beginStep_inputs (s : State) : (s.beginStep).inputs = s.inputs := rfl
@[simp] theorem State.beginStep_stepNo (s : State) : (s.beginStep).stepNo = s.stepNo := rfl

/-! ## report -/

@[simp] theorem State.report_v (s : State) (a w : Half) : (s.report a w).v = s.v := rfl
@[simp] theorem State.report_i (s : State) (a w : Half) : (s.report a w).i = s.i := rfl
@[simp] theorem State.report_pc (s : State) (a w : Half) : (s.report a w).pc = s.pc := rfl
@[simp] theorem State.report_sp (s : State) (a w : Half) : (s.report a w).sp = s.sp := rfl
@[simp] theorem State.report_stack (s : State) (a w : Half) : (s.report a w).stack = s.stack := rfl
@[simp] theorem State.report_dt (s : State) (a w : Half) : (s.report a w).dt = s.dt := rfl
@[simp] theorem State.report_st (s : State) (a w : Half) : (s.report a w).st = s.st := rfl
@[simp] theorem State.report_disp (s : State) (a w : Half) : (s.report a w).disp = s.disp := rfl
@[simp] theorem State.report_keys (s : State) (a w : Half) : (s.report a w).keys = s.keys := rfl
@[simp] theorem State.report_status (s : State) (a w : Half) : (s.report a w).status = s.status := rfl
@[simp] theorem State.report_mem (s : State) (a w : Half) : (s.report a w).mem = s.mem := rfl
@[simp] theorem State.report_event (s : State) (a w : Half) : (s.report a w).event = .unknownOpcode a w := rfl
@[simp] theorem State.report_inputs (s : State) (a w : Half) : (s.report a w).inputs = s.inputs := rfl
@[simp] theorem State.report_stepNo (s : State) (a w : Half) : (s.report a w).stepNo = s.stepNo := rfl

/-! ## timerTick -/

@[simp] theorem State.timerTick_v (s : State) (k : Bool) : (s.timerTick k).v = s.v := rfl
@[simp] theorem State.timerTick_i (s : State) (k : Bool) : (s.timerTick k).i = s.i := rfl
@[simp] theorem State.timerTick_pc (s : State) (k : Bool) : (s.timerTick k).pc = s.pc := rfl
@[simp] theorem State.timerTick_sp (s : State) (k : Bool) : (s.timerTick k).sp = s.sp := rfl
@[simp] theorem State.timerTick_stack (s : State) (k : Bool) : (s.timerTick k).stack = s.stack := rfl
@[simp] theorem State.timerTick_dt (s : State) (k : Bool) : (s.timerTick k).dt = countDown k s.dt := rfl
@[simp] theorem State.timerTick_st (s : State) (k : Bool) : (s.timerTick k).st = countDown k s.st := rfl
@[simp] theorem State.timerTick_disp (s : State) (k : Bool) : (s.timerTick k).disp = s.disp := rfl
@[simp] theorem State.timerTick_keys (s : State) (k : Bool) : (s.timerTick k).keys = s.keys := rfl
@[simp] theorem State.timerTick_status (s : State) (k : Bool) : (s.timerTick k).status = s.status := rfl
@[simp] theorem State.timerTick_mem (s : State) (k : Bool) : (s.timerTick k).mem = s.mem := rfl
@[simp] theorem State.timerTick_event (s : State) (k : Bool) : (s.timerTick k).event = s.event := rfl
@[simp] theorem State.timerTick_inputs (s : State) (k : Bool) : (s.timerTick k).inputs = s.inputs := rfl
@[simp] theorem State.timerTick_stepNo (s : State) (k : Bool) : (s.timerTick k).stepNo = s.stepNo := rfl

/-! ## showCanvas -/

@[simp] theorem State.showCanvas_v (s : State) (c : Canvas) : (s.showCanvas c).v = s.v.set 15 (flagByte c.coll) := rfl
@[simp] theorem State.showCanvas_i (s : State) (c : Canvas) : (s.showCanvas c).i = s.i := rfl
@[simp] theorem State.showCanvas_pc (s : State) (c : Canvas) : (s.showCanvas c).pc = s.pc := rfl
@[simp] theorem State.showCanvas_sp (s : State) (c : Canvas) : (s.showCanvas c).sp = s.sp := rfl
@[simp] theorem State.showCanvas_stack (s : State) (c : Canvas) : (s.showCanvas c).stack = s.stack := rfl
@[simp] theorem State.showCanvas_dt (s : State) (c : Canvas) : (s.showCanvas c).dt = s.dt := rfl
@[simp] theorem State.showCanvas_st (s : State) (c : Canvas) : (s.showCanvas c).st = s.st := rfl
@[simp] theorem State.showCanvas_disp (s : State) (c : Canvas) : (s.showCanvas c).disp = c.disp := rfl
@[simp] theorem State.showCanvas_keys (s : State) (c : Canvas) : (s.showCanvas c).keys = s.keys := rfl
@[simp] theorem State.showCanvas_status (s : State) (c : Canvas) : (s.showCanvas c).status = s.status := rfl
@[simp] theorem State.showCanvas_mem (s : State) (c : Canvas) : (s.showCanvas c).mem = s.mem := rfl
@[simp] theorem State.showCanvas_event (s : State) (c : Canvas) : (s.showCanvas c).event = s.event := rfl
@[simp] theorem State.showCanvas_inputs (s : State) (c : Canvas) : (s.showCanvas c).inputs = s.inputs := rfl
@[simp] theorem State.showCanvas_stepNo (s : State) (c : Canvas) : (s.showCanvas c).stepNo = s.stepNo := rfl

/-! ## resetWith and hostReset -/

@[simp] theorem State.resetWith_v (font : Config.Font) : (State.resetWith font).v = Vector.replicate 16 0#8 := rfl
@[simp] theorem State.resetWith_i (font : Config.Font) : (State.resetWith font).i = 0#16 := rfl
@[simp] theorem State.resetWith_pc (font : Config.Font) : (State.resetWith font).pc = Config.pcReset := rfl
@[simp] theorem State.resetWith_sp (font : Config.Font) : (State.resetWith font).sp = 0#8 := rfl
@[simp] theorem State.resetWith_stack (font : Config.Font) : (State.resetWith font).stack = Vector.replicate 16 0#16 := rfl
@[simp] theorem State.resetWith_dt (font : Config.Font) : (State.resetWith font).dt = 0#8 := rfl
@[simp] theorem State.resetWith_st (font : Config.Font) : (State.resetWith font).st = 0#8 := rfl
@[simp] theorem State.resetWith_disp (font : Config.Font) : (State.resetWith font).disp = Display.blank := rfl
@[simp] theorem State.resetWith_keys (font : Config.Font) : (State.resetWith font).keys = 0#16 := rfl
@[simp] theorem State.resetWith_status (font : Config.Font) : (State.resetWith font).status = .running := rfl
@[simp] theorem State.resetWith_mem (font : Config.Font) : (State.resetWith font).mem = resetMemory font := rfl
@[simp] theorem State.resetWith_event (font : Config.Font) : (State.resetWith font).event = .none := rfl
@[simp] theorem State.resetWith_inputs (font : Config.Font) : (State.resetWith font).inputs = [] := rfl
@[simp] theorem State.resetWith_stepNo (font : Config.Font) : (State.resetWith font).stepNo = 0 := rfl

@[simp] theorem State.hostReset_v (s : State) (font : Config.Font) : (s.hostReset font).v = Vector.replicate 16 0#8 := rfl
@[simp] theorem State.hostReset_i (s : State) (font : Config.Font) : (s.hostReset font).i = 0#16 := rfl
@[simp] theorem State.hostReset_pc (s : State) (font : Config.Font) : (s.hostReset font).pc = Config.pcReset := rfl
@[simp] theorem State.hostReset_sp (s : State) (font : Config.Font) : (s.hostReset font).sp = 0#8 := rfl
@[simp] theorem State.hostReset_stack (s : State) (font : Config.Font) : (s.hostReset font).stack = Vector.replicate 16 0#16 := rfl
@[simp] theorem State.hostReset_dt (s : State) (font : Config.Font) : (s.hostReset font).dt = 0#8 := rfl
@[simp] theorem State.hostReset_st (s : State) (font : Config.Font) : (s.hostReset font).st = 0#8 := rfl
@[simp] theorem State.hostReset_disp (s : State) (font : Config.Font) : (s.hostReset font).disp = Display.blank := rfl
@[simp] theorem State.hostReset_keys (s : State) (font : Config.Font) : (s.hostReset font).keys = 0#16 := rfl
@[simp] theorem State.hostReset_status (s : State) (font : Config.Font) : (s.hostReset font).status = .running := rfl
@[simp] theorem State.hostReset_mem (s : State) (font : Config.Font) : (s.hostReset font).mem = resetMemory font := rfl
@[simp] theorem State.hostReset_event (s : State) (font : Config.Font) : (s.hostReset font).event = .none := rfl
@[simp] theorem State.hostReset_inputs (s : State) (font : Config.Font) : (s.hostReset font).inputs = s.inputs := rfl
@[simp] theorem State.hostReset_stepNo (s : State) (font : Config.Font) : (s.hostReset font).stepNo = s.stepNo := rfl

/-! ## layWord -/

@[simp] theorem State.layWord_v (s : State) (w : Half) : (s.layWord w).v = s.v := rfl
@[simp] theorem State.layWord_i (s : State) (w : Half) : (s.layWord w).i = s.i := rfl
@[simp] theorem State.layWord_pc (s : State) (w : Half) : (s.layWord w).pc = s.fetchSlot := rfl
@[simp] theorem State.layWord_sp (s : State) (w : Half) : (s.layWord w).sp = s.sp := rfl
@[simp] theorem State.layWord_stack (s : State) (w : Half) : (s.layWord w).stack = s.stack := rfl
@[simp] theorem State.layWord_dt (s : State) (w : Half) : (s.layWord w).dt = s.dt := rfl
@[simp] theorem State.layWord_st (s : State) (w : Half) : (s.layWord w).st = s.st := rfl
@[simp] theorem State.layWord_disp (s : State) (w : Half) : (s.layWord w).disp = s.disp := rfl
@[simp] theorem State.layWord_keys (s : State) (w : Half) : (s.layWord w).keys = s.keys := rfl
@[simp] theorem State.layWord_status (s : State) (w : Half) : (s.layWord w).status = .running := rfl
@[simp] theorem State.layWord_mem (s : State) (w : Half) : (s.layWord w).mem = Memory.writeAll s.mem s.fetchSlot.toNat [highByte w, lowByte w] := rfl
@[simp] theorem State.layWord_event (s : State) (w : Half) : (s.layWord w).event = s.event := rfl
@[simp] theorem State.layWord_inputs (s : State) (w : Half) : (s.layWord w).inputs = s.inputs := rfl
@[simp] theorem State.layWord_stepNo (s : State) (w : Half) : (s.layWord w).stepNo = s.stepNo := rfl

/-! ## skipIf -/

@[simp] theorem State.skipIf_pc (s : State) (k : Bool) : (s.skipIf k).pc = if k then s.pc + 2#16 else s.pc := by
  cases k <;> rfl
@[simp] theorem State.skipIf_v (s : State) (k : Bool) : (s.skipIf k).v = s.v := by cases k <;> rfl
@[simp] theorem State.skipIf_i (s : State) (k : Bool) : (s.skipIf k).i = s.i := by cases k <;> rfl
@[simp] theorem State.skipIf_sp (s : State) (k : Bool) : (s.skipIf k).sp = s.sp := by cases k <;> rfl
@[simp] theorem State.skipIf_stack (s : State) (k : Bool) : (s.skipIf k).stack = s.stack := by cases k <;> rfl
@[simp] theorem State.skipIf_dt (s : State) (k : Bool) : (s.skipIf k).dt = s.dt := by cases k <;> rfl
@[simp] theorem State.skipIf_st (s : State) (k : Bool) : (s.skipIf k).st = s.st := by cases k <;> rfl
@[simp] theorem State.skipIf_disp (s : State) (k : Bool) : (s.skipIf k).disp = s.disp := by cases k <;> rfl
@[simp] theorem State.skipIf_keys (s : State) (k : Bool) : (s.skipIf k).keys = s.keys := by cases k <;> rfl
@[simp] theorem State.skipIf_status (s : State) (k : Bool) : (s.skipIf k).status = s.status := by cases k <;> rfl
@[simp] theorem State.skipIf_mem (s : State) (k : Bool) : (s.skipIf k).mem = s.mem := by cases k <;> rfl
@[simp] theorem State.skipIf_event (s : State) (k : Bool) : (s.skipIf k).event = s.event := by cases k <;> rfl
@[simp] theorem State.skipIf_inputs (s : State) (k : Bool) : (s.skipIf k).inputs = s.inputs := by cases k <;> rfl
@[simp] theorem State.skipIf_stepNo (s : State) (k : Bool) : (s.skipIf k).stepNo = s.stepNo := by cases k <;> rfl

/-! ## Reads after writes -/

/-- The registers are all that `readV` looks at. -/
theorem State.readV_congr {s t : State} (h : t.v = s.v) (r : Reg) : t.readV r = s.readV r := by
  simp [State.readV, h]

theorem State.readV_set (v : Vector Byte 16) (x r : Reg) (b : Byte) :
    (v.set x b)[r] = if r = x then b else v[r] := by
  simp only [Fin.getElem_fin, Vector.getElem_set, Fin.ext_iff]
  split <;> split <;> first | rfl | omega

/-- A register reads what was last written to it, and no other register changes. -/
theorem State.readV_writeV (s : State) (x r : Reg) (b : Byte) :
    (s.writeV x b).readV r = if r = x then b else s.readV r := State.readV_set ..

/-- After a result and a flag are written, VF is the flag, whatever X is (10_state.md R22). -/
theorem State.readV_writeResultThenFlag (s : State) (x r : Reg) (b f : Byte) :
    (s.writeResultThenFlag x b f).readV r = if r = VF then f else if r = x then b else s.readV r := by
  simp only [State.writeResultThenFlag, State.readV_writeV]

/-- The stack entry a push writes. -/
theorem State.readStack_push (s : State) (j k : Fin 16) :
    (s.push j).readStack k = if k = j then s.pc else s.readStack k := by
  simp only [State.readStack, State.push_stack, Fin.getElem_fin, Vector.getElem_set, Fin.ext_iff]
  split <;> split <;> first | rfl | omega

/-- A pixel toggled is inverted, and no other pixel changes. -/
theorem Display.pix_toggle (d : Display) (x x' : Fin 64) (y y' : Fin 32) :
    (d.toggle x y).pix x' y' = if x' = x ∧ y' = y then !d.pix x' y' else d.pix x' y' := by
  have hx := x.isLt
  have hx' := x'.isLt
  simp only [Display.pix, Display.toggle, Fin.getElem_fin, Vector.getElem_set, Fin.ext_iff]
  by_cases hy : y.val = y'.val
  · by_cases h : x'.val = x.val
    · simp [hy, h]
    · simp only [hy, h, if_true, false_and, if_false, BitVec.getLsbD_xor, BitVec.getLsbD_shiftLeft, BitVec.getLsbD_one]
      rcases Nat.lt_or_gt_of_ne h with h | h
      · simp [h]
      · have : x'.val - x.val ≠ 0 := by omega
        simp [this]
  · have : ¬ y'.val = y.val := fun h => hy h.symm
    simp [hy, this]

/-- Every pixel of the blank display is 0. -/
@[simp] theorem Display.pix_blank (x : Fin 64) (y : Fin 32) : Display.blank.pix x y = false := by
  simp [Display.pix, Display.blank]

end Sys2Proof.Machine
end

