-- ==== Sys2Proof/Laws/Ops.lean ====
section
/-! SUPPORT. What the shared operations can do, said once: a run of register writes, the key scan, the sprite compositor, a
transfer through `I`, and the end of a step. -/

namespace Sys2Proof.Machine

/-! ## Registers -/

/-- A run of register writes from `V[k]` on: those registers hold the bytes, the others are unchanged. -/
theorem getElem_writeRegsFrom (v : Vector Byte 16) (k : Nat) (bs : List Byte) (r : Reg) :
    (writeRegsFrom v k bs)[r] = if h : k ≤ r.val ∧ r.val - k < bs.length then bs[r.val - k]'h.2 else v[r] := by
  induction bs generalizing v k with
  | nil => simp [writeRegsFrom]
  | cons b bs ih =>
    rw [writeRegsFrom, ih]
    by_cases hr : r.val = k
    · subst hr
      simp
    · have hv : (if h : k < 16 then v.set k b else v)[r] = v[r] := by
        split
        · simp only [Fin.getElem_fin, Vector.getElem_set]
          rw [if_neg (fun e => hr e.symm)]
        · rfl
      by_cases h : k + 1 ≤ r.val ∧ r.val - (k + 1) < bs.length
      · have h' : k ≤ r.val ∧ r.val - k < (b :: bs).length := by simp only [List.length_cons]; omega
        have e : r.val - k = (r.val - (k + 1)) + 1 := by omega
        rw [dif_pos h, dif_pos h']
        simp only [e, List.getElem_cons_succ]
      · have h' : ¬ (k ≤ r.val ∧ r.val - k < (b :: bs).length) := by simp only [List.length_cons]; omega
        rw [dif_neg h, dif_neg h', hv]

/-- FX55 stores X + 1 bytes. -/
@[simp] theorem State.length_firstRegs (s : State) (x : Reg) : (s.firstRegs x).length = x.val + 1 := by
  have := x.isLt
  simp only [State.firstRegs, regCount, List.length_take, Vector.length_toList]
  omega

/-- The k-th byte FX55 stores is `V[k]`. -/
theorem State.getElem_firstRegs (s : State) (x : Reg) (k : Nat) (h : k < (s.firstRegs x).length) :
    (s.firstRegs x)[k] = s.readV ⟨k, by have := x.isLt; rw [State.length_firstRegs] at h; omega⟩ := by
  simp [State.firstRegs, State.readV]

/-! ## The key scan (44_keys_timers.md R213) -/

/-- The scan finds a pressed key with no pressed key below it, or no key is pressed. -/
theorem State.lowestKey_cases (s : State) :
    (∃ k, k < 16 ∧ s.keys.getLsbD k = true ∧ (∀ j, j < k → s.keys.getLsbD j = false) ∧ s.lowestKey = some k) ∨
      ((∀ k, k < 16 → s.keys.getLsbD k = false) ∧ s.lowestKey = none) := by
  unfold State.lowestKey
  cases h : (List.range 16).find? fun k => s.keys.getLsbD k with
  | none => exact .inr ⟨fun k hk => by simpa using List.find?_eq_none.1 h k (List.mem_range.2 hk), rfl⟩
  | some k =>
    rw [List.find?_range_eq_some] at h
    exact .inl ⟨k, List.mem_range.1 h.2.1, h.1, fun j hj => by simpa using h.2.2 j hj, rfl⟩

/-! ## The compositor (43_display.md R192 to R195) -/

/-- A pixel from `before` to `after`: inverted if `hit`, otherwise unchanged. -/
def Toggles (hit : Prop) (before after : Bool) : Prop := (hit → after = !before) ∧ (¬ hit → after = before)

/-- Two changes in a row that do not both hit a pixel make one change. -/
theorem Toggles.trans {p q h : Prop} {b m a : Bool} (h₁ : Toggles p b m) (h₂ : Toggles q m a) (hpq : ¬ (p ∧ q))
    (hh : h ↔ p ∨ q) : Toggles h b a := by
  by_cases hp : p
  · have hq : ¬ q := fun hq => hpq ⟨hp, hq⟩
    exact ⟨fun _ => (h₂.2 hq).trans (h₁.1 hp), fun n => absurd (hh.2 (.inl hp)) n⟩
  · by_cases hq : q
    · exact ⟨fun _ => (h₂.1 hq).trans (congrArg _ (h₁.2 hp)), fun n => absurd (hh.2 (.inr hq)) n⟩
    · exact ⟨fun w => ((hh.1 w).elim hp hq).elim, fun _ => (h₂.2 hq).trans (h₁.2 hp)⟩

/-- Nothing is hit. -/
theorem Toggles.refl {h : Prop} (b : Bool) (hh : ¬ h) : Toggles h b b := ⟨fun w => absurd w hh, fun _ => rfl⟩

theorem Canvas.pix_drawBit (c : Canvas) (bit : Bool) (px x : Fin 64) (py y : Fin 32) :
    Toggles (bit = true ∧ x = px ∧ y = py) (c.disp.pix x y) ((c.drawBit bit px py).disp.pix x y) := by
  cases bit
  · simp [Toggles, Canvas.drawBit]
  · simp only [Toggles, Canvas.drawBit, if_true, Display.pix_toggle, true_and]
    exact ⟨fun h => if_pos h, fun h => if_neg h⟩

theorem Canvas.coll_drawBit (c : Canvas) (bit : Bool) (px : Fin 64) (py : Fin 32) :
    (c.drawBit bit px py).coll = true ↔ c.coll = true ∨ (bit = true ∧ c.disp.pix px py = true) := by
  cases bit <;> simp [Canvas.drawBit]

/-- The 8 bits of a row fall on 8 distinct columns (R194). -/
theorem spriteColumn_inj {x0 : Byte} {b b' : Nat} (hb : b < 8) (hb' : b' < 8)
    (h : spriteColumn x0 b = spriteColumn x0 b') : b = b' := by
  have := Fin.val_eq_of_eq h
  simp only [spriteColumn, Fin.ofNat] at this
  omega

/-- At most 16 rows fall on distinct rows of the display (R194). -/
theorem spriteRow_inj {y0 : Byte} {r r' : Nat} (hr : r < 16) (hr' : r' < 16)
    (h : spriteRow y0 r = spriteRow y0 r') : r = r' := by
  have := Fin.val_eq_of_eq h
  simp only [spriteRow, Fin.ofNat] at this
  omega

/-- Some 1 among the first `n` bits of a sprite byte falls on column `x`. -/
def ByteHits (x0 row : Byte) (n : Nat) (x : Fin 64) : Prop :=
  ∃ b, b < n ∧ row.getLsbD (7 - b) = true ∧ x = spriteColumn x0 b

theorem ByteHits.succ (x0 row : Byte) (n : Nat) (x : Fin 64) :
    ByteHits x0 row (n + 1) x ↔ ByteHits x0 row n x ∨ (row.getLsbD (7 - n) = true ∧ x = spriteColumn x0 n) := by
  constructor
  · rintro ⟨b, hb, r⟩
    by_cases e : b = n
    · exact .inr (e ▸ r)
    · exact .inl ⟨b, by omega, r⟩
  · rintro (⟨b, hb, r⟩ | r)
    · exact ⟨b, by omega, r⟩
    · exact ⟨n, by omega, r⟩

theorem ByteHits.not_next {x0 row : Byte} {n : Nat} (hn : n < 8) : ¬ ByteHits x0 row n (spriteColumn x0 n) := by
  rintro ⟨b, hb, -, e⟩
  have := spriteColumn_inj (by omega) (by omega) e
  omega

/-- The first `n` bits of a sprite byte: each 1 bit toggles its own pixel, and the collision bit says whether one of
those pixels was lit before. -/
theorem Canvas.foldl_drawBit (c : Canvas) (x0 : Byte) (py : Fin 32) (row : Byte) (n : Nat) (hn : n ≤ 8) :
    let c' := (List.range n).foldl (fun c b => c.drawBit (row.getLsbD (7 - b)) (spriteColumn x0 b) py) c
    (∀ x y, Toggles (ByteHits x0 row n x ∧ y = py) (c.disp.pix x y) (c'.disp.pix x y)) ∧
      (c'.coll = true ↔ c.coll = true ∨ ∃ x, ByteHits x0 row n x ∧ c.disp.pix x py = true) := by
  induction n with
  | zero => simp [Toggles, ByteHits]
  | succ n ih =>
    have ⟨hp, hc⟩ := ih (by omega)
    simp only [List.range_succ, List.foldl_append, List.foldl_cons, List.foldl_nil]
    constructor
    · intro x y
      refine (hp x y).trans (Canvas.pix_drawBit ..) ?_ ?_
      · rintro ⟨⟨h, -⟩, -, rfl, -⟩
        exact ByteHits.not_next (by omega) h
      · rw [ByteHits.succ, or_and_right, and_assoc]
    · rw [Canvas.coll_drawBit, hc, (hp _ _).2 fun h => ByteHits.not_next (by omega) h.1, or_assoc]
      refine or_congr_right ?_
      simp only [ByteHits.succ, or_and_right, exists_or]
      refine or_congr_right ⟨fun h => ⟨_, ⟨h.1, rfl⟩, h.2⟩, ?_⟩
      rintro ⟨x, ⟨h, rfl⟩, hl⟩
      exact ⟨h, hl⟩

/-- A whole sprite byte. -/
theorem Canvas.drawByte_spec (c : Canvas) (x0 : Byte) (py : Fin 32) (row : Byte) :
    (∀ x y, Toggles (ByteHits x0 row 8 x ∧ y = py) (c.disp.pix x y) ((c.drawByte x0 py row).disp.pix x y)) ∧
      ((c.drawByte x0 py row).coll = true ↔
        c.coll = true ∨ ∃ x, ByteHits x0 row 8 x ∧ c.disp.pix x py = true) :=
  Canvas.foldl_drawBit c x0 py row 8 (Nat.le_refl 8)

/-- Some 1 bit of the sprite bytes, the first of them row number `r`, falls on the pixel. -/
def RowsHit (x0 y0 : Byte) (r : Nat) (rows : List Byte) (x : Fin 64) (y : Fin 32) : Prop :=
  ∃ k, ∃ h : k < rows.length, ByteHits x0 rows[k] 8 x ∧ y = spriteRow y0 (r + k)

theorem RowsHit.cons (x0 y0 : Byte) (r : Nat) (row : Byte) (rows : List Byte) (x : Fin 64) (y : Fin 32) :
    RowsHit x0 y0 r (row :: rows) x y ↔
      (ByteHits x0 row 8 x ∧ y = spriteRow y0 r) ∨ RowsHit x0 y0 (r + 1) rows x y := by
  constructor
  · rintro ⟨k, hk, hx, hy⟩
    rcases k with _ | k
    · exact .inl ⟨by simpa using hx, by simpa using hy⟩
    · exact .inr ⟨k, by simpa using hk, by simpa using hx, by rw [hy, Nat.add_assoc, Nat.add_comm 1 k]⟩
  · rintro (⟨hx, hy⟩ | ⟨k, hk, hx, hy⟩)
    · exact ⟨0, by simp, by simpa using hx, by simpa using hy⟩
    · exact ⟨k + 1, by simpa using hk, by simpa using hx, by rw [hy, Nat.add_assoc, Nat.add_comm 1 k]⟩

/-- Later rows do not fall on row number `r` (R194). -/
theorem RowsHit.not_earlier {x0 y0 : Byte} {r : Nat} {rows : List Byte} {x : Fin 64} {y : Fin 32}
    (hr : r + 1 + rows.length ≤ 16) (h : RowsHit x0 y0 (r + 1) rows x y) : y ≠ spriteRow y0 r := by
  rintro rfl
  obtain ⟨k, hk, -, e⟩ := h
  have := spriteRow_inj (by omega) (by omega) e
  omega

/-- The rows from number `r` on: every pixel is toggled exactly if some 1 bit of the sprite falls on it, and the
collision bit says whether one of those pixels was lit before (R192, R194, R195). -/
theorem Canvas.drawRows_spec (c : Canvas) (x0 y0 : Byte) (r : Nat) (rows : List Byte) (hr : r + rows.length ≤ 16) :
    (∀ x y, Toggles (RowsHit x0 y0 r rows x y) (c.disp.pix x y) ((c.drawRows x0 y0 r rows).disp.pix x y)) ∧
      ((c.drawRows x0 y0 r rows).coll = true ↔
        c.coll = true ∨ ∃ x y, RowsHit x0 y0 r rows x y ∧ c.disp.pix x y = true) := by
  induction rows generalizing c r with
  | nil => simp [Canvas.drawRows, Toggles, RowsHit]
  | cons row rows ih =>
    simp only [List.length_cons] at hr
    have ⟨hp, hc⟩ := Canvas.drawByte_spec c x0 (spriteRow y0 r) row
    have ⟨ihp, ihc⟩ := ih (c.drawByte x0 (spriteRow y0 r) row) (r + 1) (by omega)
    have apart : ∀ {x y}, RowsHit x0 y0 (r + 1) rows x y → y ≠ spriteRow y0 r :=
      RowsHit.not_earlier (by omega)
    constructor
    · intro x y
      exact (hp x y).trans (ihp x y) (fun h => apart h.2 h.1.2) (RowsHit.cons ..)
    · rw [Canvas.drawRows, ihc, hc, or_assoc]
      refine or_congr_right ?_
      simp only [RowsHit.cons, or_and_right, exists_or]
      refine or_congr ⟨fun ⟨x, h, hl⟩ => ⟨x, _, ⟨h, rfl⟩, hl⟩, ?_⟩ ?_
      · rintro ⟨x, _, ⟨h, rfl⟩, hl⟩
        exact ⟨x, h, hl⟩
      · refine exists_congr fun x => exists_congr fun y => and_congr_right fun h => ?_
        rw [(hp x y).2 fun w => apart h w.2]

/-- `DrawSprite` (R192), for at most 16 rows. -/
theorem drawSprite_spec (d : Display) (x0 y0 : Byte) (rows : List Byte) (hr : rows.length ≤ 16) :
    (∀ x y, Toggles (RowsHit x0 y0 0 rows x y) (d.pix x y) ((drawSprite d x0 y0 rows).disp.pix x y)) ∧
      ((drawSprite d x0 y0 rows).coll = true ↔ ∃ x y, RowsHit x0 y0 0 rows x y ∧ d.pix x y = true) := by
  have h := Canvas.drawRows_spec ⟨d, false⟩ x0 y0 0 rows (by omega)
  simpa [drawSprite] using h

/-! ## Transfers through `I` (42_index_memory.md R177) -/

/-- Everything a store through `I` can do: all bytes and the index, or the fault of the first failing access. -/
theorem State.storeThenIndex_cases (s : State) (bytes : List Byte) (after : Half) :
    (∃ m, writeBytes s.mem s.i.toNat bytes = .ok m ∧
        s.storeThenIndex bytes after = .next ({ s.advance with mem := m }.writeI after)) ∨
      ∃ r, writeBytes s.mem s.i.toNat bytes = .error r ∧ s.storeThenIndex bytes after = .next (s.takeFault r) := by
  simp only [State.storeThenIndex, State.dataAddr, Nat.add_zero]
  cases writeBytes s.mem s.i.toNat bytes with
  | ok m => exact .inl ⟨m, rfl, rfl⟩
  | error r => exact .inr ⟨r, rfl, rfl⟩

/-! ## Timers and the end of a step (60_exceptions.md R250) -/

/-- A timer after the countdown, as R250 writes it. -/
theorem countDown_eq (tick : Bool) (v : Byte) :
    countDown tick v = if tick = true ∧ 0 < v.toNat then v - 1#8 else v := by
  unfold countDown
  by_cases hv : v = 0#8
  · simp [hv]
  · have : 0 < v.toNat := Nat.pos_of_ne_zero fun h => hv (BitVec.eq_of_toNat_eq (by simpa using h))
    cases tick <;> simp [hv, this]

/-- "Timers never go negative": the countdown never wraps. -/
theorem countDown_toNat (tick : Bool) (v : Byte) :
    (countDown tick v).toNat = if tick = true then v.toNat - 1 else v.toNat := by
  rw [countDown_eq]
  have := v.isLt
  cases tick
  · simp
  · by_cases hv : 0 < v.toNat
    · simp only [hv, and_self, if_true, BitVec.toNat_sub, BitVec.toNat_ofNat]
      omega
    · have : v.toNat = 0 := by omega
      simp [this]

theorem State.afterExecute_running {t : State} (h : t.status = .running) :
    t.afterExecute = (t.timerTick t.tickIn).consumeInput := by simp [State.afterExecute, h]

theorem State.afterExecute_faulted {t : State} {c : FaultCause} {n : Nat} (h : t.status = .faulted c n) :
    t.afterExecute = t.consumeInput := by simp [State.afterExecute, h]

/-- The end of a step answers a next state exactly where the instruction did. -/
theorem finishStep_eq_next {o : Outcome} {t : State} :
    finishStep o = .next t ↔ ∃ u, o = .next u ∧ t = u.afterExecute := by
  cases o with
  | next u => simp [finishStep, eq_comm]
  | fault f => simp [finishStep]
  | refused r => simp [finishStep]

end Sys2Proof.Machine
end

