-- ==== Sys2Proof/Laws/Frame.lean ====
section
/-! SUPPORT. The frame `OnlyChanges` of each shared operation, and how frames compose. -/

namespace Sys2Proof.Machine

/-- Nothing changes. -/
theorem OnlyChanges.refl (regs : Reg → Prop) (parts : List Part) (s : State) : OnlyChanges regs parts s s := by
  constructor <;> intros <;> first | rfl | exact ⟨rfl, rfl⟩

/-- A larger frame. -/
theorem OnlyChanges.mono {regs regs' : Reg → Prop} {parts parts' : List Part} {s t : State}
    (h : OnlyChanges regs parts s t) (hr : ∀ r, regs r → regs' r) (hp : ∀ p, p ∈ parts → p ∈ parts') :
    OnlyChanges regs' parts' s t where
  v r n := h.v r fun w => n (hr r w)
  i n := h.i fun w => n (hp _ w)
  pc n := h.pc fun w => n (hp _ w)
  sp n := h.sp fun w => n (hp _ w)
  stack n := h.stack fun w => n (hp _ w)
  dt n := h.dt fun w => n (hp _ w)
  st n := h.st fun w => n (hp _ w)
  disp n := h.disp fun w => n (hp _ w)
  keys n := h.keys fun w => n (hp _ w)
  status n := h.status fun w => n (hp _ w)
  mem n := h.mem fun w => n (hp _ w)
  event n := h.event fun w => n (hp _ w)
  supply n := h.supply fun w => n (hp _ w)

/-- One change after another, inside one frame. -/
theorem OnlyChanges.trans {regs : Reg → Prop} {parts : List Part} {s t u : State} (h : OnlyChanges regs parts s t)
    (k : OnlyChanges regs parts t u) : OnlyChanges regs parts s u where
  v r n := (k.v r n).trans (h.v r n)
  i n := (k.i n).trans (h.i n)
  pc n := (k.pc n).trans (h.pc n)
  sp n := (k.sp n).trans (h.sp n)
  stack n j := (k.stack n j).trans (h.stack n j)
  dt n := (k.dt n).trans (h.dt n)
  st n := (k.st n).trans (h.st n)
  disp n x y := (k.disp n x y).trans (h.disp n x y)
  keys n := (k.keys n).trans (h.keys n)
  status n := (k.status n).trans (h.status n)
  mem n a := (k.mem n a).trans (h.mem n a)
  event n := (k.event n).trans (h.event n)
  supply n := ⟨(k.supply n).1.trans (h.supply n).1, (k.supply n).2.trans (h.supply n).2⟩

/-- Where each named field is the same, the frame holds: an update of State lists what it leaves. -/
theorem OnlyChanges.of_fields {regs : Reg → Prop} {parts : List Part} {s t : State}
    (v : ∀ r, ¬ regs r → t.readV r = s.readV r) (i : .i ∉ parts → t.i = s.i) (pc : .pc ∉ parts → t.pc = s.pc)
    (sp : .sp ∉ parts → t.sp = s.sp) (stack : .stack ∉ parts → t.stack = s.stack) (dt : .dt ∉ parts → t.dt = s.dt)
    (st : .st ∉ parts → t.st = s.st) (disp : .disp ∉ parts → t.disp = s.disp) (keys : .keys ∉ parts → t.keys = s.keys)
    (status : .status ∉ parts → t.status = s.status) (mem : .mem ∉ parts → t.mem = s.mem)
    (event : .event ∉ parts → t.event = s.event)
    (supply : .supply ∉ parts → t.inputs = s.inputs ∧ t.stepNo = s.stepNo) : OnlyChanges regs parts s t where
  v := v
  i := i
  pc := pc
  sp := sp
  stack n j := by simp [State.readStack, stack n]
  dt := dt
  st := st
  disp n x y := by rw [disp n]
  keys := keys
  status := status
  mem n a := by rw [mem n]
  event := event
  supply := supply

section
variable (s : State)

theorem State.writeV_frame (x : Reg) (b : Byte) : OnlyChanges (· = x) [] s (s.writeV x b) := by
  apply OnlyChanges.of_fields <;> first | (intro r h; rw [State.readV_writeV, if_neg h]) | simp

theorem State.writeResultThenFlag_frame (x : Reg) (b f : Byte) :
    OnlyChanges (fun r => r = x ∨ r = VF) [] s (s.writeResultThenFlag x b f) := by
  apply OnlyChanges.of_fields
  · intro r h
    rw [State.readV_writeResultThenFlag, if_neg fun e => h (.inr e), if_neg fun e => h (.inl e)]
  all_goals simp

theorem State.writeI_frame (w : Half) : OnlyChanges noReg [.i] s (s.writeI w) := by
  apply OnlyChanges.of_fields <;> first | exact fun _ _ => rfl | simp

theorem State.writePc_frame (w : Half) : OnlyChanges noReg [.pc] s (s.writePc w) := by
  apply OnlyChanges.of_fields <;> first | exact fun _ _ => rfl | simp

theorem State.advance_frame : OnlyChanges noReg [.pc] s s.advance := State.writePc_frame s _

theorem State.skipIf_frame (k : Bool) : OnlyChanges noReg [.pc] s (s.skipIf k) := by
  cases k
  · exact OnlyChanges.refl ..
  · exact State.writePc_frame s _

theorem State.push_frame (j : Fin 16) : OnlyChanges noReg [.sp, .stack] s (s.push j) := by
  apply OnlyChanges.of_fields <;> first | exact fun _ _ => rfl | simp

theorem State.pop_frame (j : Fin 16) : OnlyChanges noReg [.pc, .sp] s (s.pop j) := by
  apply OnlyChanges.of_fields <;> first | exact fun _ _ => rfl | simp

theorem State.takeFault_frame (r : Raised) : OnlyChanges noReg [.status] s (s.takeFault r) := by
  apply OnlyChanges.of_fields <;> first | exact fun _ _ => rfl | simp

theorem State.report_frame (a w : Half) : OnlyChanges noReg [.event] s (s.report a w) := by
  apply OnlyChanges.of_fields <;> first | exact fun _ _ => rfl | simp

theorem State.beginStep_frame : OnlyChanges noReg [.event] s s.beginStep := by
  apply OnlyChanges.of_fields <;> first | exact fun _ _ => rfl | simp

theorem State.consumeInput_frame : OnlyChanges noReg [.supply] s s.consumeInput := by
  apply OnlyChanges.of_fields <;> first | exact fun _ _ => rfl | simp

theorem State.timerTick_frame (k : Bool) : OnlyChanges noReg [.dt, .st] s (s.timerTick k) := by
  apply OnlyChanges.of_fields <;> first | exact fun _ _ => rfl | simp

theorem State.showCanvas_frame (c : Canvas) : OnlyChanges (· = VF) [.disp] s (s.showCanvas c) := by
  apply OnlyChanges.of_fields
  · intro r h
    exact (State.readV_writeV { s with disp := c.disp } VF r _).trans (if_neg h)
  all_goals simp

/-- The end of a step: the timers on a completed instruction, and the inputs. -/
theorem State.afterExecute_frame : OnlyChanges noReg [.dt, .st, .supply] s s.afterExecute := by
  cases h : s.status with
  | running =>
    rw [State.afterExecute_running h]
    exact ((State.timerTick_frame s _).mono (fun _ w => w) (by simp)).trans
      ((State.consumeInput_frame _).mono (fun _ w => w) (by simp))
  | faulted c n =>
    rw [State.afterExecute_faulted h]
    exact (State.consumeInput_frame s).mono (fun _ w => w) (by simp)

/-- The same, without the timers, on an instruction that faulted. -/
theorem State.afterExecute_frame_faulted {c : FaultCause} {n : Nat} (h : s.status = .faulted c n) :
    OnlyChanges noReg [.supply] s s.afterExecute := by
  rw [State.afterExecute_faulted h]
  exact State.consumeInput_frame s

/-- Fault entry, as claims write it. -/
theorem State.takeFault_entersFault (r : Raised) : EntersFault (.next (s.takeFault r)) s r.cause r.info :=
  ⟨_, rfl, rfl, State.takeFault_frame s r⟩

end

end Sys2Proof.Machine
end

