-- ==== Sys2Proof/Laws/Exec.lean ====
section
/-! SUPPORT. What an instruction and a step can do, said once: `exec_cases` and `step_cases`, which later proofs cite in
place of unfolding `exec` and `step`. -/

namespace Sys2Proof.Machine

/-- The general registers an instruction may write (10_state.md R21). -/
def mayWrite : Instr → Reg → Prop
  | .ldImm x _ | .addImm x _ | .ldReg x _ | .rnd x _ | .ldFromDt x | .ldKey x => fun r => r = x
  | .orReg x _ | .andReg x _ | .xorReg x _ | .addReg x _ | .subReg x _ | .shr x _ | .subnReg x _ | .shl x _ =>
    fun r => r = x ∨ r = VF
  | .drw _ _ _ => fun r => r = VF
  | .ldRegs x => fun r => r ≤ x
  | _ => noReg

/-- The other parts an instruction may change when it completes. -/
def mayChange : Instr → List Part
  | .cls | .drw _ _ _ => [.pc, .disp]
  | .ret => [.pc, .sp]
  | .sys _ => [.pc, .event]
  | .call _ => [.pc, .sp, .stack]
  | .ldI _ | .addI _ | .ldF _ | .ldRegs _ => [.pc, .i]
  | .ldB _ => [.pc, .mem]
  | .stRegs _ => [.pc, .i, .mem]
  | .ldToDt _ => [.pc, .dt]
  | .ldToSt _ => [.pc, .st]
  | _ => [.pc]

/-- When an instruction raises (60_exceptions.md R230, rows 2 to 6). -/
def Raises (s : State) : Instr → Raised → Prop
  | .call _, r => s.sp.toNat = 16 ∧ r = ⟨.stackOverflow, 16⟩
  | .ret, r => s.sp.toNat = 0 ∧ r = ⟨.stackUnderflow, 0⟩
  | i, r =>
    (r.cause = .memReadOutOfRange ∧ FirstBad BadRead s (dataReads i) r.info) ∨
      (r.cause = .memWriteOutOfRange ∧ FirstBad BadWrite s (dataWrites i) r.info ∧ 0xFFF < r.info) ∨
      (r.cause = .fontWrite ∧ FirstBad BadWrite s (dataWrites i) r.info ∧ 0x050 ≤ r.info ∧ r.info ≤ 0x09F)

/-- An access cannot be first to fail where every access succeeds. -/
theorem FirstBad.not_canRead {s : State} {count n : Nat} (h : FirstBad BadRead s count n) (hc : CanRead s count) :
    False := by
  obtain ⟨k, hk, rfl, hb, -⟩ := h
  exact hc k hk hb

theorem FirstBad.not_canWrite {s : State} {count n : Nat} (h : FirstBad BadWrite s count n)
    (hc : CanWrite s count) : False := by
  obtain ⟨k, hk, rfl, hb, -⟩ := h
  exact hc k hk hb

/-- Only one address is the first to fail. -/
theorem FirstBad.unique {bad : Nat → Prop} {s : State} {count n n' : Nat} (h : FirstBad bad s count n)
    (h' : FirstBad bad s count n') : n = n' := by
  obtain ⟨k, hk, rfl, hb, hg⟩ := h
  obtain ⟨k', hk', rfl, hb', hg'⟩ := h'
  rcases Nat.lt_trichotomy k k' with e | e | e
  · exact absurd hb (hg' k e)
  · rw [e]
  · exact absurd hb' (hg k' e)

/-- A run of reads at `I`: all bytes where all are legal, or the fault of the first that is not. -/
theorem readBytes_dataAddr_cases (s : State) (count : Nat) :
    (CanRead s count ∧ readBytes s.mem (s.dataAddr 0) count =
        .ok ((List.range count).map fun k => Memory.read s.mem (s.dataAddr k))) ∨
      ∃ a, FirstBad BadRead s count a ∧ readBytes s.mem (s.dataAddr 0) count = .error ⟨.memReadOutOfRange, a⟩ := by
  rcases readBytes_cases s.mem (s.dataAddr 0) count with ⟨h, e⟩ | ⟨k, hk, hb, hg, e⟩
  · exact .inl ⟨fun k hk => by have := h k hk; simp only [State.dataAddr, BadRead] at *; omega, by simpa [State.dataAddr] using e⟩
  · refine .inr ⟨s.dataAddr k, ⟨k, hk, rfl, ?_, fun j hj => ?_⟩, by simpa [State.dataAddr] using e⟩
    · simpa [BadRead, State.dataAddr] using hb
    · have := hg j hj
      simp only [State.dataAddr, BadRead] at *
      omega

theorem not_badWrite_iff (a : Nat) : ¬ BadWrite a ↔ a ≤ 0xFFF ∧ inFontset a = false := by
  rw [← Bool.not_eq_true, inFontset_iff, BadWrite]
  omega

/-- A run of writes at `I`: all bytes where all are legal, or the fault of the first that is not. -/
theorem writeBytes_dataAddr_cases (s : State) (bs : List Byte) :
    (CanWrite s bs.length ∧ writeBytes s.mem (s.dataAddr 0) bs = .ok (Memory.writeAll s.mem (s.dataAddr 0) bs)) ∨
      ∃ a, FirstBad BadWrite s bs.length a ∧
        ((0xFFF < a ∧ writeBytes s.mem (s.dataAddr 0) bs = .error ⟨.memWriteOutOfRange, a⟩) ∨
          (0x050 ≤ a ∧ a ≤ 0x09F ∧ writeBytes s.mem (s.dataAddr 0) bs = .error ⟨.fontWrite, a⟩)) := by
  have addr : ∀ k, s.dataAddr 0 + k = s.dataAddr k := fun k => by simp [State.dataAddr]
  rcases writeBytes_cases s.mem (s.dataAddr 0) bs with ⟨h, e⟩ | ⟨k, hk, hg, hb⟩
  · exact .inl ⟨fun k hk => (not_badWrite_iff _).2 (addr k ▸ h k hk), e⟩
  · have good : ∀ j, j < k → ¬ BadWrite (s.dataAddr j) := fun j hj => (not_badWrite_iff _).2 (addr j ▸ hg j hj)
    rw [addr] at hb
    rcases hb with ⟨hb, e⟩ | ⟨-, hf, e⟩
    · exact .inr ⟨_, ⟨k, hk, rfl, .inl hb, good⟩, .inl ⟨hb, e⟩⟩
    · rw [inFontset_iff] at hf
      exact .inr ⟨_, ⟨k, hk, rfl, .inr hf, good⟩, .inr ⟨hf.1, hf.2, e⟩⟩

/-- Everything a completed or faulted instruction can do: it took the fault its operands raise, on the state it started
from; or it raised none, and changed only what it may. -/
theorem exec_cases {i : Instr} {s t : State} (h : exec i s = .next t) :
    (∃ r, Raises s i r ∧ t = s.takeFault r) ∨
      ((∀ r, ¬ Raises s i r) ∧ OnlyChanges (mayWrite i) (mayChange i) s t) := by
  have adv : ∀ {regs : Reg → Prop} {parts : List Part}, .pc ∈ parts → OnlyChanges regs parts s s.advance :=
    fun hp => (State.advance_frame s).mono (fun _ w => w.elim) (by simpa using hp)
  have quiet : ∀ {j : Instr}, dataReads j = 0 → dataWrites j = 0 → (∀ nnn, j ≠ .call nnn) → j ≠ .ret →
      ∀ r, ¬ Raises s j r := by
    intro j hr hw hc hret r
    have none : ∀ {bad n}, ¬ FirstBad bad s 0 n := fun ⟨k, hk, _⟩ => by omega
    cases j <;> simp_all [Raises]
  have store : ∀ {j : Instr} {bs : List Byte} {after : Half}, dataReads j = 0 → dataWrites j = bs.length →
      (∀ nnn, j ≠ .call nnn) → j ≠ .ret → s.storeThenIndex bs after = .next t →
      (∃ r, Raises s j r ∧ t = s.takeFault r) ∨
        ((∀ r, ¬ Raises s j r) ∧ t = { s.advance with mem := Memory.writeAll s.mem (s.dataAddr 0) bs }.writeI after) := by
    intro j bs after hr hw hc hret h
    simp only [State.storeThenIndex] at h
    have raises_iff : ∀ r, Raises s j r ↔ (r.cause = .memWriteOutOfRange ∧ FirstBad BadWrite s bs.length r.info ∧ 0xFFF < r.info) ∨
        (r.cause = .fontWrite ∧ FirstBad BadWrite s bs.length r.info ∧ 0x050 ≤ r.info ∧ r.info ≤ 0x09F) := by
      intro r
      have none : ∀ {bad n}, ¬ FirstBad bad s 0 n := fun ⟨k, hk, _⟩ => by omega
      cases j <;> simp_all [Raises]
    rcases writeBytes_dataAddr_cases s bs with ⟨hok, e⟩ | ⟨a, ha, ⟨hb, e⟩ | ⟨hl, hu, e⟩⟩ <;> rw [e] at h <;>
      simp only [State.completeOrFault] at h <;> injection h with h
    · refine .inr ⟨fun r w => ?_, h.symm⟩
      rcases (raises_iff r).1 w with ⟨-, w, -⟩ | ⟨-, w, -⟩ <;> exact w.not_canWrite hok
    · exact .inl ⟨_, (raises_iff _).2 (.inl ⟨rfl, ha, hb⟩), h.symm⟩
    · exact .inl ⟨_, (raises_iff _).2 (.inr ⟨rfl, ha, hl, hu⟩), h.symm⟩
  cases i with
  | cls =>
    injection h with h
    subst h
    exact .inr ⟨quiet rfl rfl nofun nofun, by apply OnlyChanges.of_fields <;> simp [mayChange, State.readV]⟩
  | ret =>
    simp only [exec, execRet] at h
    split at h
    · rename_i h0
      injection h with h
      exact .inl ⟨⟨.stackUnderflow, 0⟩, ⟨h0, rfl⟩, by rw [← h, h0]⟩
    · rename_i h0
      split at h
      · injection h with h
        subst h
        exact .inr ⟨fun r w => h0 w.1, (adv (by simp [mayChange])).trans
          ((State.pop_frame ..).mono (fun _ w => w.elim) (by simp [mayChange]))⟩
      · cases h
  | sys nnn =>
    injection h with h
    subst h
    exact .inr ⟨quiet rfl rfl nofun nofun, (adv (by simp [mayChange])).trans
      ((State.report_frame ..).mono (fun _ w => w.elim) (by simp [mayChange]))⟩
  | jp nnn =>
    injection h with h
    subst h
    exact .inr ⟨quiet rfl rfl nofun nofun, (adv (by simp [mayChange])).trans
      ((State.writePc_frame ..).mono (fun _ w => w.elim) (by simp [mayChange]))⟩
  | call nnn =>
    simp only [exec, execCall] at h
    split at h
    · rename_i h0
      injection h with h
      subst h
      exact .inr ⟨fun r w => by have := w.1; omega, ((adv (by simp [mayChange])).trans
        ((State.push_frame ..).mono (fun _ w => w.elim) (by simp [mayChange]))).trans
        ((State.writePc_frame ..).mono (fun _ w => w.elim) (by simp [mayChange]))⟩
    · split at h
      · rename_i h0
        injection h with h
        exact .inl ⟨⟨.stackOverflow, 16⟩, ⟨h0, rfl⟩, by rw [← h, h0]⟩
      · cases h
  | seImm | sneImm | seReg | sneReg | skp | sknp =>
    injection h with h
    subst h
    exact .inr ⟨quiet rfl rfl nofun nofun, (adv (by simp [mayChange])).trans
      ((State.skipIf_frame ..).mono (fun _ w => w.elim) (by simp [mayChange]))⟩
  | ldImm | addImm | ldReg | rnd | ldFromDt =>
    injection h with h
    subst h
    exact .inr ⟨quiet rfl rfl nofun nofun, (adv (by simp [mayChange])).trans
      ((State.writeV_frame ..).mono (fun _ w => w) (by simp [mayChange]))⟩
  | orReg | andReg | xorReg | addReg | subReg | shr | subnReg | shl =>
    injection h with h
    subst h
    exact .inr ⟨quiet rfl rfl nofun nofun, (adv (by simp [mayChange])).trans
      ((State.writeResultThenFlag_frame ..).mono (fun _ w => w) (by simp [mayChange]))⟩
  | ldI | addI | ldF =>
    injection h with h
    subst h
    exact .inr ⟨quiet rfl rfl nofun nofun, (adv (by simp [mayChange])).trans
      ((State.writeI_frame ..).mono (fun _ w => w.elim) (by simp [mayChange]))⟩
  | jpV0 nnn =>
    injection h with h
    subst h
    exact .inr ⟨quiet rfl rfl nofun nofun, (adv (by simp [mayChange])).trans
      ((State.writePc_frame ..).mono (fun _ w => w.elim) (by simp [mayChange]))⟩
  | drw x y n =>
    simp only [exec, execDrw] at h
    rcases readBytes_dataAddr_cases s n.toNat with ⟨hok, e⟩ | ⟨a, ha, e⟩ <;> rw [e] at h <;>
      simp only [State.completeOrFault] at h <;> injection h with h
    · subst h
      refine .inr ⟨fun r w => ?_, (adv (by simp [mayChange])).trans
        ((State.showCanvas_frame ..).mono (fun _ w => w) (by simp [mayChange]))⟩
      rcases w with ⟨-, w⟩ | ⟨-, ⟨_, hk, _⟩, -⟩ | ⟨-, ⟨_, hk, _⟩, -⟩
      · exact w.not_canRead hok
      · simp [dataWrites] at hk
      · simp [dataWrites] at hk
    · exact .inl ⟨⟨.memReadOutOfRange, a⟩, .inl ⟨rfl, ha⟩, h.symm⟩
  | ldKey x =>
    refine .inr ⟨quiet rfl rfl nofun nofun, ?_⟩
    simp only [exec, execLdKey] at h
    split at h <;> injection h with h <;> subst h
    · exact (adv (by simp [mayChange])).trans
        ((State.writeV_frame ..).mono (fun _ w => w) (by simp [mayChange]))
    · exact (adv (by simp [mayChange])).trans
        ((State.writePc_frame ..).mono (fun _ w => w.elim) (by simp [mayChange]))
  | ldToDt | ldToSt =>
    injection h with h
    subst h
    exact .inr ⟨quiet rfl rfl nofun nofun, by apply OnlyChanges.of_fields <;> simp [mayChange, State.readV]⟩
  | ldB x =>
    refine (store (j := .ldB x) rfl rfl nofun nofun h).imp_right (And.imp_right ?_)
    rintro rfl
    apply OnlyChanges.of_fields <;> simp [mayChange, State.readV]
  | stRegs x =>
    refine (store (j := .stRegs x) rfl (State.length_firstRegs s x).symm nofun nofun h).imp_right (And.imp_right ?_)
    rintro rfl
    apply OnlyChanges.of_fields <;> simp [mayChange, State.readV]
  | ldRegs x =>
    simp only [exec, execLdRegs, regCount] at h
    rcases readBytes_dataAddr_cases s (x.val + 1) with ⟨hok, e⟩ | ⟨a, ha, e⟩ <;> rw [e] at h <;>
      simp only [State.completeOrFault] at h <;> injection h with h
    · subst h
      refine .inr ⟨fun r w => ?_, ?_⟩
      · rcases w with ⟨-, w⟩ | ⟨-, ⟨_, hk, _⟩, -⟩ | ⟨-, ⟨_, hk, _⟩, -⟩
        · exact w.not_canRead hok
        · simp [dataWrites] at hk
        · simp [dataWrites] at hk
      · apply OnlyChanges.of_fields
        · intro r hr
          have : x.val < r.val := by simpa [mayWrite] using hr
          simp only [State.readV, State.writeI_v]
          rw [getElem_writeRegsFrom, dif_neg]
          simp
          omega
        all_goals simp [mayChange]
    · exact .inl ⟨⟨.memReadOutOfRange, a⟩, .inl ⟨rfl, ha⟩, h.symm⟩

/-- The bytes at the pc decode to one instruction, where the word they form decodes. -/
theorem nextInstr_iff {s : State} {i : Instr} :
    NextInstr s i ↔ ∃ w, NextWord s w ∧ decodeWord w = .ok i := by
  unfold NextInstr NextWord decode
  constructor
  · rintro ⟨hp, h⟩
    refine ⟨_, ⟨hp, rfl⟩, ?_⟩
    cases e : decodeWord (wordOfBytes (Memory.read s.mem s.pc.toNat) (Memory.read s.mem (s.pc.toNat + 1))) with
    | ok j => simp [e] at h; rw [h]
    | error u => simp [e] at h
  · rintro ⟨w, ⟨hp, rfl⟩, h⟩
    exact ⟨hp, by simp [h]⟩

/-- The next instruction is one instruction. -/
theorem NextInstr.unique {s : State} {i j : Instr} (h : NextInstr s i) (k : NextInstr s j) : i = j := by
  have := h.2.symm.trans k.2
  simpa using this

/-- The inputs and the number of a step do not change what it fetches. -/
theorem NextInstr.congr {s t : State} {i : Instr} (hm : t.mem = s.mem) (hp : t.pc = s.pc) :
    NextInstr t i ↔ NextInstr s i := by
  unfold NextInstr
  rw [hm, hp]

/-- Everything a step can do: stay quiescent, fault at the fetch, ignore an unrecognized word, or end the instruction at
the pc (30_encoding.md R100). -/
theorem step_cases (s : State) :
    (∃ c n, s.status = .faulted c n ∧ step s = .next s.quiescentStep) ∨
      (s.status = .running ∧ 0xFFE < s.pc.toNat ∧
        step s = .next (s.fetchFaultStep ⟨.fetchOutOfRange, s.pc.toNat⟩)) ∨
      (s.status = .running ∧ ∃ w u, NextWord s w ∧ decodeWord w = .error u ∧
        step s = .next (s.beginStep.advance.report s.pc w).afterExecute) ∨
      (s.status = .running ∧ ∃ i, NextInstr s i ∧ step s = finishStep (exec i s.beginStep)) := by
  cases hs : s.status with
  | faulted c n => exact .inl ⟨c, n, rfl, by simp [step, hs]⟩
  | running =>
    rcases fetch16_cases s.mem s.pc.toNat with ⟨hp, e⟩ | ⟨hp, e⟩
    · cases hd : decodeWord (wordOfBytes (Memory.read s.mem s.pc.toNat) (Memory.read s.mem (s.pc.toNat + 1))) with
      | ok i => exact .inr (.inr (.inr ⟨rfl, i, nextInstr_iff.2 ⟨_, ⟨hp, rfl⟩, hd⟩, by simp [step, hs, e, hd]⟩))
      | error u =>
        exact .inr (.inr (.inl ⟨rfl, _, u, ⟨hp, rfl⟩, hd, by simp [step, hs, e, hd, execUnrecognized, finishStep]⟩))
    · exact .inr (.inl ⟨rfl, hp, by simp [step, hs, e]⟩)

/-- A step of a running block with an instruction at the pc. -/
theorem step_of_nextInstr {s : State} {i : Instr} (hs : s.status = .running) (hi : NextInstr s i) :
    step s = finishStep (exec i s.beginStep) := by
  rcases step_cases s with ⟨_, _, h, -⟩ | ⟨-, h, -⟩ | ⟨-, w, u, hw, hu, -⟩ | ⟨-, j, hj, h⟩
  · simp [hs] at h
  · have := hi.1
    omega
  · obtain ⟨w', hw', hd⟩ := nextInstr_iff.1 hi
    have : w' = w := hw'.2.trans hw.2.symm
    rw [this, hu] at hd
    cases hd
  · rw [h, hi.unique hj]

/-- No instruction uses up an input: the step does. -/
theorem exec_supply {i : Instr} {s u : State} (h : exec i s = .next u) :
    u.inputs = s.inputs ∧ u.stepNo = s.stepNo := by
  rcases exec_cases h with ⟨r, -, rfl⟩ | ⟨-, f⟩
  · exact ⟨rfl, rfl⟩
  · exact f.supply (by cases i <;> simp [mayChange])

/-- A completed instruction leaves `STATUS` alone. -/
theorem status_notMem_mayChange (i : Instr) : Part.status ∉ mayChange i := by cases i <;> simp [mayChange]

/-- Everything a step that answers a next state has done. -/
theorem step_next_cases {s t : State} (h : step s = .next t) :
    (∃ c n, s.status = .faulted c n ∧ t = s.quiescentStep) ∨
      (s.status = .running ∧ 0xFFE < s.pc.toNat ∧ t = s.fetchFaultStep ⟨.fetchOutOfRange, s.pc.toNat⟩) ∨
      (s.status = .running ∧ s.pc.toNat ≤ 0xFFE ∧ (∀ i, ¬ NextInstr s i) ∧
        ∃ w, t = ((s.beginStep.advance.report s.pc w).timerTick s.tickIn).consumeInput) ∨
      (s.status = .running ∧ ∃ i, NextInstr s i ∧
        ((∃ r, Raises s i r ∧ t = (s.beginStep.takeFault r).consumeInput) ∨
          ((∀ r, ¬ Raises s i r) ∧ ∃ u, exec i s.beginStep = .next u ∧ u.status = .running ∧
            OnlyChanges (mayWrite i) (mayChange i) s.beginStep u ∧ t = (u.timerTick s.tickIn).consumeInput))) := by
  rcases step_cases s with ⟨c, n, h', e⟩ | ⟨hs, hp, e⟩ | ⟨hs, w, u, hw, hu, e⟩ | ⟨hs, i, hi, e⟩ <;> rw [e] at h
  · injection h with h
    exact .inl ⟨c, n, h', h.symm⟩
  · injection h with h
    exact .inr (.inl ⟨hs, hp, h.symm⟩)
  · injection h with h
    refine .inr (.inr (.inl ⟨hs, hw.1, fun i hi => ?_, w, ?_⟩))
    · obtain ⟨w', hw', hd⟩ := nextInstr_iff.1 hi
      have : w' = w := hw'.2.trans hw.2.symm
      rw [this, hu] at hd
      cases hd
    · rw [← h]
      exact State.afterExecute_running (t := s.beginStep.advance.report s.pc w) hs
  · obtain ⟨u, hu, rfl⟩ := finishStep_eq_next.1 h
    have raises_begin : ∀ r, Raises s.beginStep i r ↔ Raises s i r := fun r => by cases i <;> exact Iff.rfl
    refine .inr (.inr (.inr ⟨hs, i, hi, ?_⟩))
    rcases exec_cases hu with ⟨r, hr, rfl⟩ | ⟨hn, f⟩
    · exact .inl ⟨r, (raises_begin r).1 hr, State.afterExecute_faulted rfl⟩
    · have hr : u.status = .running := (f.status (status_notMem_mayChange i)).trans hs
      have tick : u.tickIn = s.tickIn := by simp [State.tickIn, State.input, exec_supply hu]
      exact .inr ⟨fun r w => hn r ((raises_begin r).2 w), u, hu, hr, f, by rw [State.afterExecute_running hr, tick]⟩

end Sys2Proof.Machine
end

