-- ==== Sys2Proof/Laws/PerInstr.lean ====
section
/-! SUPPORT. The family TableRow: the encoder's word of every instruction matches that instruction's row of
spec/opcode_table.json, its `match` under its `mask`. -/

namespace Sys2Proof.Laws.TableRow

/-- `match` and `mask` of the instruction's row, copied from spec/opcode_table.json. -/
def row : Instr → Half × Half
  | .cls => (0x00E0#16, 0xFFFF#16)
  | .ret => (0x00EE#16, 0xFFFF#16)
  | .sys _ => (0x0000#16, 0xF000#16)
  | .jp _ => (0x1000#16, 0xF000#16)
  | .call _ => (0x2000#16, 0xF000#16)
  | .seImm _ _ => (0x3000#16, 0xF000#16)
  | .sneImm _ _ => (0x4000#16, 0xF000#16)
  | .seReg _ _ => (0x5000#16, 0xF00F#16)
  | .ldImm _ _ => (0x6000#16, 0xF000#16)
  | .addImm _ _ => (0x7000#16, 0xF000#16)
  | .ldReg _ _ => (0x8000#16, 0xF00F#16)
  | .orReg _ _ => (0x8001#16, 0xF00F#16)
  | .andReg _ _ => (0x8002#16, 0xF00F#16)
  | .xorReg _ _ => (0x8003#16, 0xF00F#16)
  | .addReg _ _ => (0x8004#16, 0xF00F#16)
  | .subReg _ _ => (0x8005#16, 0xF00F#16)
  | .shr _ _ => (0x8006#16, 0xF00F#16)
  | .subnReg _ _ => (0x8007#16, 0xF00F#16)
  | .shl _ _ => (0x800E#16, 0xF00F#16)
  | .sneReg _ _ => (0x9000#16, 0xF00F#16)
  | .ldI _ => (0xA000#16, 0xF000#16)
  | .jpV0 _ => (0xB000#16, 0xF000#16)
  | .rnd _ _ => (0xC000#16, 0xF000#16)
  | .drw _ _ _ => (0xD000#16, 0xF000#16)
  | .skp _ => (0xE09E#16, 0xF0FF#16)
  | .sknp _ => (0xE0A1#16, 0xF0FF#16)
  | .ldFromDt _ => (0xF007#16, 0xF0FF#16)
  | .ldKey _ => (0xF00A#16, 0xF0FF#16)
  | .ldToDt _ => (0xF015#16, 0xF0FF#16)
  | .ldToSt _ => (0xF018#16, 0xF0FF#16)
  | .addI _ => (0xF01E#16, 0xF0FF#16)
  | .ldF _ => (0xF029#16, 0xF0FF#16)
  | .ldB _ => (0xF033#16, 0xF0FF#16)
  | .stRegs _ => (0xF055#16, 0xF0FF#16)
  | .ldRegs _ => (0xF065#16, 0xF0FF#16)

/-- The word of the instruction lies in its row. -/
def Statement (i : Instr) : Prop := encode i &&& (row i).2 = (row i).1

/-- A word of class, X and KK under the class mask. -/
theorem class_regImm (c x : Nibble) (kk : Byte) : (c ++ x ++ kk) &&& 0xF000#16 = c ++ 0#12 := by
  apply BitVec.eq_of_getLsbD_eq
  intro i hi
  simp only [BitVec.getLsbD_and, BitVec.getLsbD_append]
  interval_cases i <;> simp

/-- A word of class and NNN under the class mask. -/
theorem class_addr (c : Nibble) (nnn : Addr12) : (c ++ nnn) &&& 0xF000#16 = c ++ 0#12 := by
  apply BitVec.eq_of_getLsbD_eq
  intro i hi
  simp only [BitVec.getLsbD_and, BitVec.getLsbD_append]
  interval_cases i <;> simp

/-- A word of class, X, Y and N under the class mask. -/
theorem class_regRegN (c x y n : Nibble) : (c ++ x ++ y ++ n) &&& 0xF000#16 = c ++ 0#12 := by
  apply BitVec.eq_of_getLsbD_eq
  intro i hi
  simp only [BitVec.getLsbD_and, BitVec.getLsbD_append]
  interval_cases i <;> simp

/-- A word of class, X, Y and N under the mask of class and N. -/
theorem classN_regRegN (c x y n : Nibble) : (c ++ x ++ y ++ n) &&& 0xF00F#16 = c ++ 0#8 ++ n := by
  apply BitVec.eq_of_getLsbD_eq
  intro i hi
  simp only [BitVec.getLsbD_and, BitVec.getLsbD_append]
  interval_cases i <;> simp

/-- A word of class, X and KK under the mask of class and KK. -/
theorem classKK_regImm (c x : Nibble) (kk : Byte) : (c ++ x ++ kk) &&& 0xF0FF#16 = c ++ 0#4 ++ kk := by
  apply BitVec.eq_of_getLsbD_eq
  intro i hi
  simp only [BitVec.getLsbD_and, BitVec.getLsbD_append]
  interval_cases i <;> simp

theorem cls : Statement (.cls) := rfl
theorem ret : Statement (.ret) := rfl
theorem sys (nnn : Addr12) : Statement (.sys nnn) := (class_addr ..).trans rfl
theorem jp (nnn : Addr12) : Statement (.jp nnn) := (class_addr ..).trans rfl
theorem call (nnn : Addr12) : Statement (.call nnn) := (class_addr ..).trans rfl
theorem seImm (x : Reg) (kk : Byte) : Statement (.seImm x kk) := (class_regImm ..).trans rfl
theorem sneImm (x : Reg) (kk : Byte) : Statement (.sneImm x kk) := (class_regImm ..).trans rfl
theorem seReg (x y : Reg) : Statement (.seReg x y) := (classN_regRegN ..).trans rfl
theorem ldImm (x : Reg) (kk : Byte) : Statement (.ldImm x kk) := (class_regImm ..).trans rfl
theorem addImm (x : Reg) (kk : Byte) : Statement (.addImm x kk) := (class_regImm ..).trans rfl
theorem ldReg (x y : Reg) : Statement (.ldReg x y) := (classN_regRegN ..).trans rfl
theorem orReg (x y : Reg) : Statement (.orReg x y) := (classN_regRegN ..).trans rfl
theorem andReg (x y : Reg) : Statement (.andReg x y) := (classN_regRegN ..).trans rfl
theorem xorReg (x y : Reg) : Statement (.xorReg x y) := (classN_regRegN ..).trans rfl
theorem addReg (x y : Reg) : Statement (.addReg x y) := (classN_regRegN ..).trans rfl
theorem subReg (x y : Reg) : Statement (.subReg x y) := (classN_regRegN ..).trans rfl
theorem shr (x y : Reg) : Statement (.shr x y) := (classN_regRegN ..).trans rfl
theorem subnReg (x y : Reg) : Statement (.subnReg x y) := (classN_regRegN ..).trans rfl
theorem shl (x y : Reg) : Statement (.shl x y) := (classN_regRegN ..).trans rfl
theorem sneReg (x y : Reg) : Statement (.sneReg x y) := (classN_regRegN ..).trans rfl
theorem ldI (nnn : Addr12) : Statement (.ldI nnn) := (class_addr ..).trans rfl
theorem jpV0 (nnn : Addr12) : Statement (.jpV0 nnn) := (class_addr ..).trans rfl
theorem rnd (x : Reg) (kk : Byte) : Statement (.rnd x kk) := (class_regImm ..).trans rfl
theorem drw (x y : Reg) (n : Nibble) : Statement (.drw x y n) := (class_regRegN ..).trans rfl
theorem skp (x : Reg) : Statement (.skp x) := (classKK_regImm ..).trans rfl
theorem sknp (x : Reg) : Statement (.sknp x) := (classKK_regImm ..).trans rfl
theorem ldFromDt (x : Reg) : Statement (.ldFromDt x) := (classKK_regImm ..).trans rfl
theorem ldKey (x : Reg) : Statement (.ldKey x) := (classKK_regImm ..).trans rfl
theorem ldToDt (x : Reg) : Statement (.ldToDt x) := (classKK_regImm ..).trans rfl
theorem ldToSt (x : Reg) : Statement (.ldToSt x) := (classKK_regImm ..).trans rfl
theorem addI (x : Reg) : Statement (.addI x) := (classKK_regImm ..).trans rfl
theorem ldF (x : Reg) : Statement (.ldF x) := (classKK_regImm ..).trans rfl
theorem ldB (x : Reg) : Statement (.ldB x) := (classKK_regImm ..).trans rfl
theorem stRegs (x : Reg) : Statement (.stRegs x) := (classKK_regImm ..).trans rfl
theorem ldRegs (x : Reg) : Statement (.ldRegs x) := (classKK_regImm ..).trans rfl

end Sys2Proof.Laws.TableRow
end

