-- ==== Sys2Proof/Tests/Slice0.lean ====
section
/-! SUPPORT. The model's own tests: the WellFormed smoke test, a word of every instruction decoded, at most two one-step
tests per instruction with the expected values of spec/95_test_vectors.md, and a witness for every statement with
hypotheses. -/

namespace Sys2Proof.Tests

open Sys2Proof.Machine

/-! ## WellFormed -/

/-- 00E0 is CLS, so SYS 0E0 stands for no word (R84). -/
theorem test_wellFormed_refuses_sys_0E0 : (Instr.sys 0x0E0#12).wellFormed = false := by decide

/-- 00EE is RET, so SYS 0EE stands for no word (R84). -/
theorem test_wellFormed_refuses_sys_0EE : (Instr.sys 0x0EE#12).wellFormed = false := by decide

/-- Their neighbours are SYS. -/
theorem test_wellFormed_admits_sys :
    [Instr.sys 0x0DF#12, .sys 0x0E1#12, .sys 0x0ED#12, .sys 0x0EF#12, .sys 0x000#12, .sys 0xFFF#12].all
      Instr.wellFormed = true := by decide

/-! ## Decode: one word of each row, written out from R84's patterns -/

theorem test_decode_class0 :
    decode [0x00, 0xE0] = .ok (.cls, []) ∧ decode [0x00, 0xEE] = .ok (.ret, []) ∧
      decode [0x01, 0x23] = .ok (.sys 0x123#12, []) ∧ decode [0x00, 0x00] = .ok (.sys 0x000#12, []) := by decide

theorem test_decode_jump_call :
    decode [0x12, 0x34] = .ok (.jp 0x234#12, []) ∧ decode [0x24, 0x00] = .ok (.call 0x400#12, []) ∧
      decode [0xB2, 0xF0] = .ok (.jpV0 0x2F0#12, []) := by decide

theorem test_decode_skips :
    decode [0x3A, 0x05] = .ok (.seImm 10 0x05#8, []) ∧ decode [0x41, 0xFF] = .ok (.sneImm 1 0xFF#8, []) ∧
      decode [0x53, 0x40] = .ok (.seReg 3 4, []) ∧ decode [0x93, 0x40] = .ok (.sneReg 3 4, []) := by decide

theorem test_decode_loads :
    decode [0x6F, 0x42] = .ok (.ldImm 15 0x42#8, []) ∧ decode [0x70, 0x01] = .ok (.addImm 0 0x01#8, []) ∧
      decode [0x81, 0xF0] = .ok (.ldReg 1 15, []) ∧ decode [0xC3, 0x0F] = .ok (.rnd 3 0x0F#8, []) := by decide

theorem test_decode_alu :
    decode [0x81, 0x21] = .ok (.orReg 1 2, []) ∧ decode [0x81, 0x22] = .ok (.andReg 1 2, []) ∧
      decode [0x81, 0x23] = .ok (.xorReg 1 2, []) ∧ decode [0x81, 0x24] = .ok (.addReg 1 2, []) ∧
      decode [0x81, 0x25] = .ok (.subReg 1 2, []) ∧ decode [0x81, 0x26] = .ok (.shr 1 2, []) ∧
      decode [0x81, 0x27] = .ok (.subnReg 1 2, []) ∧ decode [0x81, 0x2E] = .ok (.shl 1 2, []) := by decide

theorem test_decode_index :
    decode [0xA3, 0x00] = .ok (.ldI 0x300#12, []) ∧ decode [0xF2, 0x1E] = .ok (.addI 2, []) ∧
      decode [0xF0, 0x29] = .ok (.ldF 0, []) ∧ decode [0xF5, 0x33] = .ok (.ldB 5, []) ∧
      decode [0xF2, 0x55] = .ok (.stRegs 2, []) ∧ decode [0xFF, 0x65] = .ok (.ldRegs 15, []) := by decide

theorem test_decode_display_keys_timers :
    decode [0xD1, 0x25] = .ok (.drw 1 2 5#4, []) ∧ decode [0xE1, 0x9E] = .ok (.skp 1, []) ∧
      decode [0xE1, 0xA1] = .ok (.sknp 1, []) ∧ decode [0xF3, 0x07] = .ok (.ldFromDt 3, []) ∧
      decode [0xF5, 0x0A] = .ok (.ldKey 5, []) ∧ decode [0xF2, 0x15] = .ok (.ldToDt 2, []) ∧
      decode [0xF2, 0x18] = .ok (.ldToSt 2, []) := by decide

/-- F0-01 to F0-05: words that match no row, rejected by name. -/
theorem test_decode_unrecognized :
    decode [0x53, 0x41] = .error (.unrecognized .class5) ∧ decode [0x81, 0x28] = .error (.unrecognized .class8) ∧
      decode [0x93, 0x4E] = .error (.unrecognized .class9) ∧ decode [0xE1, 0x9F] = .error (.unrecognized .classE) ∧
      decode [0xF0, 0xFF] = .error (.unrecognized .classF) ∧ decode [0x00] = .error .truncated := by decide

/-- The table's bit 0 is the least significant bit of the word. -/
theorem test_decodeTableWord :
    decodeTableWord 16 0x8124 = some (.addReg 1 2) ∧ decodeTableWord 16 0x00E0 = some .cls ∧
      decodeTableWord 16 0x8128 = none := by decide

/-! ## One step on a small state -/

/-- The reset state with some general registers set. -/
def withRegs (l : List (Reg × Byte)) : State := l.foldl (fun s p => s.writeV p.1 p.2) State.reset

/-- The reset memory with bytes laid out from 0x300. -/
def memAt300 (bs : List Byte) : Memory := Memory.writeAll [] 0x300 bs

/-- The blank display with some pixels lit. -/
def lit (l : List (Fin 64 × Fin 32)) : Display := l.foldl (fun d p => d.toggle p.1 p.2) Display.blank

/-- One step that runs the word `w` answers a next state, and `p` holds of it. -/
def runs (s : State) (w : Nat) (p : State → Bool) : Bool :=
  match step (s.withFetchWord 16 w) with
  | .next t => p t
  | .fault _ => false
  | .refused _ => false

/-- One step of the state as it stands. -/
def steps (s : State) (p : State → Bool) : Bool :=
  match step s with
  | .next t => p t
  | .fault _ => false
  | .refused _ => false

/-- The inputs of one ticked step. -/
def ticked : List StepInput := [⟨true, 0#8⟩]

/-- A state with an `SP` that the spec rules out. -/
def badSp : State := { State.reset with sp := 17 }

/-! ### Fetch, unrecognized words and quiescence (F0) -/

/-- F0-05: an unrecognized word is reported, and the timer tick applies. -/
theorem test_unrecognized_reports_and_ticks :
    runs { State.reset with dt := 2, inputs := ticked } 0xF0FF
      (fun t => t.pc == 0x202 && t.dt == 1 && t.event == .unknownOpcode 0x200 0xF0FF) = true := by decide

/-- F0-06: the last legal fetch. -/
theorem test_fetch_last_pair :
    runs { State.reset with pc := 0xFFE } 0x6001 (fun t => t.pc == 0x1000 && t.readV 0 == 1) = true := by decide

/-- F0-07: a fetch at 0xFFF faults. -/
theorem test_fetch_at_FFF_faults :
    steps { State.reset with pc := 0xFFF }
      (fun t => t.pc == 0xFFF && t.status == .faulted .fetchOutOfRange 0xFFF) = true := by decide

/-- F0-09: an odd pc is fetched normally. -/
theorem test_fetch_odd_pc :
    runs { State.reset with pc := 0x201 } 0x6142 (fun t => t.pc == 0x203 && t.readV 1 == 0x42) = true := by decide

/-- F0-10: the byte at the pc is the high byte. -/
theorem test_fetch_is_big_endian :
    steps { State.reset with mem := Memory.writeAll [] 0x200 [0xA1, 0x23] }
      (fun t => t.pc == 0x202 && t.i == 0x123) = true := by decide

/-- F0-11: a faulted block is quiescent. -/
theorem test_faulted_is_quiescent :
    steps { State.reset with
        status := .faulted .stackUnderflow 0, dt := 5, inputs := ticked, mem := Memory.writeAll [] 0x200 [0x60, 0x01] }
      (fun t => t.pc == 0x200 && t.dt == 5 && t.readV 0 == 0 && t.event == .none &&
        t.status == .faulted .stackUnderflow 0) = true := by decide

/-! ### Control flow (F1) -/

/-- F1-21. -/
theorem test_sys_reports :
    runs State.reset 0x0000 (fun t => t.pc == 0x202 && t.event == .unknownOpcode 0x200 0x0000) = true := by decide

/-- F1-01. -/
theorem test_jp : runs State.reset 0x1234 (fun t => t.pc == 0x234 && t.event == .none) = true := by decide

/-- F1-04. -/
theorem test_call_fills_the_last_entry :
    runs { State.reset with sp := 15 } 0x2400
      (fun t => t.pc == 0x400 && t.sp == 16 && t.readStack 15 == 0x202 && t.readStack 14 == 0) = true := by decide

/-- F1-05. -/
theorem test_call_overflows :
    runs { State.reset with sp := 16 } 0x2400
      (fun t => t.pc == 0x200 && t.sp == 16 && t.status == .faulted .stackOverflow 16) = true := by decide

/-- F1-06. -/
theorem test_ret_pops :
    runs { State.reset with sp := 2, stack := (State.reset.stack.set 0 0x204).set 1 0x30A } 0x00EE
      (fun t => t.pc == 0x30A && t.sp == 1 && t.readStack 1 == 0x30A) = true := by decide

/-- F1-08. -/
theorem test_ret_underflows_without_a_tick :
    runs { State.reset with dt := 5, inputs := ticked } 0x00EE
      (fun t => t.pc == 0x200 && t.dt == 5 && t.status == .faulted .stackUnderflow 0) = true := by decide

/-- F1-09. -/
theorem test_seImm_skips : runs (withRegs [(10, 0x05)]) 0x3A05 (fun t => t.pc == 0x204) = true := by decide

/-- F1-10. -/
theorem test_seImm_does_not_skip : runs (withRegs [(10, 0x06)]) 0x3A05 (fun t => t.pc == 0x202) = true := by decide

/-- F1-11. -/
theorem test_sneImm_skips : runs State.reset 0x41FF (fun t => t.pc == 0x204) = true := by decide

/-- F1-12. -/
theorem test_sneImm_does_not_skip : runs (withRegs [(1, 0xFF)]) 0x41FF (fun t => t.pc == 0x202) = true := by decide

/-- F1-13. -/
theorem test_seReg_skips : runs (withRegs [(3, 0x12)]) 0x5330 (fun t => t.pc == 0x204) = true := by decide

/-- F1-14. -/
theorem test_seReg_does_not_skip :
    runs (withRegs [(3, 1), (4, 2)]) 0x5340 (fun t => t.pc == 0x202) = true := by decide

/-- F1-15. -/
theorem test_sneReg_skips : runs (withRegs [(3, 1), (4, 2)]) 0x9340 (fun t => t.pc == 0x204) = true := by decide

/-- F1-16. -/
theorem test_sneReg_does_not_skip :
    runs (withRegs [(3, 2), (4, 2)]) 0x9340 (fun t => t.pc == 0x202) = true := by decide

/-- F1-17: the offset is V2, not V0. -/
theorem test_jpV0_takes_the_high_nibble :
    runs (withRegs [(2, 0x10), (0, 0x99)]) 0xB2F0 (fun t => t.pc == 0x300) = true := by decide

/-- F1-19: the target is not masked. -/
theorem test_jpV0_is_not_masked : runs (withRegs [(15, 0xFF)]) 0xBFFF (fun t => t.pc == 0x10FE) = true := by decide

/-! ### Register loads, ALU and random (F2) -/

/-- F2-01. -/
theorem test_ldImm : runs State.reset 0x6F42 (fun t => t.pc == 0x202 && t.readV 15 == 0x42) = true := by decide

/-- F2-02. -/
theorem test_addImm_wraps_without_flag :
    runs (withRegs [(0, 0xFF), (15, 0x07)]) 0x7001
      (fun t => t.pc == 0x202 && t.readV 0 == 0 && t.readV 15 == 0x07) = true := by decide

/-- F2-04. -/
theorem test_ldReg :
    runs (withRegs [(15, 0x5A)]) 0x81F0 (fun t => t.pc == 0x202 && t.readV 1 == 0x5A) = true := by decide

/-- F2-05. -/
theorem test_or :
    runs (withRegs [(1, 0x0F), (2, 0xF0), (15, 1)]) 0x8121
      (fun t => t.pc == 0x202 && t.readV 1 == 0xFF && t.readV 15 == 0) = true := by decide

/-- F2-06: the flag overwrites the result. -/
theorem test_or_into_VF :
    runs (withRegs [(2, 0xF0), (15, 1)]) 0x8F21 (fun t => t.readV 15 == 0 && t.readV 2 == 0xF0) = true := by decide

/-- F2-08. -/
theorem test_and :
    runs (withRegs [(1, 0x3C), (2, 0x0F), (15, 9)]) 0x8122
      (fun t => t.pc == 0x202 && t.readV 1 == 0x0C && t.readV 15 == 0) = true := by decide

/-- F2-09. -/
theorem test_xor_with_itself :
    runs (withRegs [(1, 0xAB)]) 0x8113 (fun t => t.pc == 0x202 && t.readV 1 == 0 && t.readV 15 == 0) = true := by decide

/-- F2-10, W2. -/
theorem test_add_carries :
    runs (withRegs [(1, 250), (2, 10)]) 0x8124
      (fun t => t.pc == 0x202 && t.readV 1 == 4 && t.readV 15 == 1) = true := by decide

/-- F2-14: VF is read as an operand before the flag is written. -/
theorem test_add_reads_VF :
    runs (withRegs [(1, 1), (15, 0xFF)]) 0x81F4 (fun t => t.readV 1 == 0 && t.readV 15 == 1) = true := by decide

/-- F2-16, W3. -/
theorem test_sub_borrows :
    runs (withRegs [(1, 5), (2, 10)]) 0x8125
      (fun t => t.pc == 0x202 && t.readV 1 == 0xFB && t.readV 15 == 0) = true := by decide

/-- F2-17: equal is no borrow. -/
theorem test_sub_equal :
    runs (withRegs [(1, 7), (2, 7)]) 0x8125 (fun t => t.readV 1 == 0 && t.readV 15 == 1) = true := by decide

/-- F2-21: V2 is not read. -/
theorem test_shr :
    runs (withRegs [(1, 5), (2, 0xFF)]) 0x8126
      (fun t => t.pc == 0x202 && t.readV 1 == 2 && t.readV 15 == 1 && t.readV 2 == 0xFF) = true := by decide

/-- F2-23. -/
theorem test_shr_of_VF : runs (withRegs [(15, 3)]) 0x8FF6 (fun t => t.readV 15 == 1) = true := by decide

/-- F2-24. -/
theorem test_subn_borrows :
    runs (withRegs [(1, 10), (2, 5)]) 0x8127
      (fun t => t.pc == 0x202 && t.readV 1 == 0xFB && t.readV 15 == 0) = true := by decide

/-- F2-25. -/
theorem test_subn_no_borrow :
    runs (withRegs [(1, 5), (2, 10)]) 0x8127 (fun t => t.readV 1 == 5 && t.readV 15 == 1) = true := by decide

/-- F2-27. -/
theorem test_shl :
    runs (withRegs [(1, 0x81)]) 0x812E (fun t => t.pc == 0x202 && t.readV 1 == 2 && t.readV 15 == 1) = true := by decide

/-- F2-28. -/
theorem test_shl_clears_the_flag :
    runs (withRegs [(1, 0x41), (15, 1)]) 0x812E (fun t => t.readV 1 == 0x82 && t.readV 15 == 0) = true := by decide

/-- F2-30. -/
theorem test_rnd_masks :
    runs { State.reset with inputs := [⟨false, 0xA7#8⟩] } 0xC30F
      (fun t => t.pc == 0x202 && t.readV 3 == 0x07) = true := by decide

/-! ### Index register and memory transfer (F3) -/

/-- F3-01. -/
theorem test_ldI : runs State.reset 0xA300 (fun t => t.pc == 0x202 && t.i == 0x300) = true := by decide

/-- F3-03. -/
theorem test_addI_passes_FFF_without_flag :
    runs { withRegs [(2, 1)] with i := 0xFFF } 0xF21E
      (fun t => t.pc == 0x202 && t.i == 0x1000 && t.readV 15 == 0) = true := by decide

/-- F3-04. -/
theorem test_addI_wraps :
    runs { withRegs [(2, 1)] with i := 0xFFFF } 0xF21E (fun t => t.i == 0) = true := by decide

/-- F3-06: only the low nibble counts. -/
theorem test_ldF : runs (withRegs [(0, 0x1A)]) 0xF029 (fun t => t.pc == 0x202 && t.i == 0x082) = true := by decide

/-- F3-08. -/
theorem test_ldB :
    runs { withRegs [(5, 254)] with i := 0x300 } 0xF533
      (fun t => t.pc == 0x202 && t.i == 0x300 && Memory.read t.mem 0x300 == 2 && Memory.read t.mem 0x301 == 5 &&
        Memory.read t.mem 0x302 == 4) = true := by decide

/-- F3-12: the third write falls into the fontset, and nothing is written. -/
theorem test_ldB_font_write :
    runs { withRegs [(5, 1)] with i := 0x04E } 0xF533
      (fun t => t.pc == 0x200 && Memory.read t.mem 0x04E == 0 && Memory.read t.mem 0x04F == 0 &&
        t.status == .faulted .fontWrite 0x050) = true := by decide

/-- F3-13. -/
theorem test_stRegs :
    runs { withRegs [(0, 0x11), (1, 0x22), (2, 0x33)] with i := 0x300 } 0xF255
      (fun t => t.pc == 0x202 && t.i == 0x303 && Memory.read t.mem 0x300 == 0x11 &&
        Memory.read t.mem 0x302 == 0x33) = true := by decide

/-- F3-15: the third write is out of range, and nothing is written. -/
theorem test_stRegs_out_of_range :
    runs { withRegs [(0, 1), (1, 2), (2, 3)] with i := 0xFFE } 0xF255
      (fun t => t.pc == 0x200 && t.i == 0xFFE && Memory.read t.mem 0xFFE == 0 && Memory.read t.mem 0xFFF == 0 &&
        t.status == .faulted .memWriteOutOfRange 0x1000) = true := by decide

/-- F3-18. -/
theorem test_ldRegs :
    runs { State.reset with i := 0x300, mem := memAt300 [1, 2, 3] } 0xF265
      (fun t => t.pc == 0x202 && t.i == 0x303 && t.readV 0 == 1 && t.readV 1 == 2 && t.readV 2 == 3 &&
        t.readV 3 == 0) = true := by decide

/-- F3-21. -/
theorem test_ldRegs_out_of_range :
    runs { withRegs [(0, 7)] with i := 0xFFF } 0xF165
      (fun t => t.pc == 0x200 && t.readV 0 == 7 && t.status == .faulted .memReadOutOfRange 0x1000) = true := by decide

/-! ### Display (F4) -/

/-- F4-12. -/
theorem test_cls :
    runs { withRegs [(15, 7)] with disp := lit [(0, 0), (63, 31)] } 0x00E0
      (fun t => t.pc == 0x202 && t.disp == Display.blank && t.readV 15 == 7) = true := by decide

/-- F4-03: the sprite wraps at the right edge. -/
theorem test_drw_wraps :
    runs { withRegs [(0, 62)] with i := 0x300, mem := memAt300 [0xF0] } 0xD011
      (fun t => t.pc == 0x202 && t.readV 15 == 0 && t.disp == lit [(62, 0), (63, 0), (0, 0), (1, 0)]) = true := by
  decide

/-- F4-09: a collision. -/
theorem test_drw_collides :
    runs { State.reset with i := 0x300, mem := memAt300 [0xC0], disp := lit [(1, 0), (5, 0)] } 0xD011
      (fun t => t.readV 15 == 1 && t.disp == lit [(0, 0), (5, 0)]) = true := by decide

/-! ### Keys and timers (F5) -/

/-- F5-01. -/
theorem test_skp_skips :
    runs { withRegs [(1, 5)] with keys := 1#16 <<< 5 } 0xE19E (fun t => t.pc == 0x204) = true := by decide

/-- F5-03: 0x11 is not key 1. -/
theorem test_skp_does_not_mask :
    runs { withRegs [(1, 0x11)] with keys := 1#16 <<< 1 } 0xE19E (fun t => t.pc == 0x202) = true := by decide

/-- F5-04. -/
theorem test_sknp_does_not_mask : runs (withRegs [(1, 0x20)]) 0xE1A1 (fun t => t.pc == 0x204) = true := by decide

/-- F5-05. -/
theorem test_sknp_key_15 :
    runs { withRegs [(1, 0x0F)] with keys := 1#16 <<< 15 } 0xE1A1 (fun t => t.pc == 0x202) = true := by decide

/-- F5-06. -/
theorem test_ldFromDt_reads_before_the_tick :
    runs { State.reset with dt := 0x3C, inputs := ticked } 0xF307
      (fun t => t.pc == 0x202 && t.readV 3 == 0x3C && t.dt == 0x3B) = true := by decide

/-- F5-09: the timers tick during the wait. -/
theorem test_ldKey_rearms_and_ticks :
    runs { withRegs [(0, 9)] with dt := 5, st := 1, inputs := ticked } 0xF00A
      (fun t => t.pc == 0x200 && t.readV 0 == 9 && t.dt == 4 && t.st == 0) = true := by decide

/-- F5-08. -/
theorem test_ldKey_takes_the_lowest :
    runs { State.reset with keys := 1#16 <<< 3 ||| 1#16 <<< 7 } 0xF00A
      (fun t => t.pc == 0x202 && t.readV 0 == 3) = true := by decide

/-- F5-11. -/
theorem test_ldToDt_then_ticks :
    runs { withRegs [(2, 0x3C)] with inputs := ticked } 0xF215 (fun t => t.pc == 0x202 && t.dt == 0x3B) = true := by
  decide

/-- F5-12: no underflow. -/
theorem test_ldToDt_zero :
    runs { State.reset with dt := 9, inputs := ticked } 0xF015 (fun t => t.dt == 0) = true := by decide

/-- F5-13. -/
theorem test_ldToSt_then_ticks :
    runs { withRegs [(2, 5)] with inputs := ticked } 0xF218 (fun t => t.pc == 0x202 && t.st == 4 && t.dt == 0) = true := by
  decide

/-- F5-16: no tick. -/
theorem test_no_tick :
    runs { State.reset with dt := 1, st := 2, inputs := [⟨false, 0#8⟩] } 0x6000
      (fun t => t.dt == 1 && t.st == 2) = true := by decide

/-! ### Host operations (W1, W5, F5, F6) -/

/-- W5. -/
theorem test_reset_memory :
    Memory.read State.reset.mem 0x055 = 0x20 ∧ Memory.read State.reset.mem 0x200 = 0 := by decide

/-- A `FONT` other than the default: every byte 0x20, so that `FONT[5] = 0x20` (R7). -/
def otherFont : Config.Font := ⟨Vector.replicate 80 0x20#8, by decide⟩

/-- R7, R55: another `FONT` is installed by reset, at the whole region and nothing else. -/
theorem test_reset_with_another_font :
    [0x04F, 0x050, 0x055, 0x09F, 0x0A0].map (Memory.read (State.resetWith otherFont).mem) =
      [0x00, 0x20, 0x20, 0x20, 0x00] := by decide

/-- W1. -/
theorem test_loadRom :
    (State.reset.loadRom [0x12, 0x34, 0x56]).1 = .loadOk ∧
      [0x200, 0x201, 0x202, 0x203, 0x055].map (Memory.read (State.reset.loadRom [0x12, 0x34, 0x56]).2.mem) =
        [0x12, 0x34, 0x56, 0x00, 0x20] := by decide

/-- F6-04: 3585 bytes are refused, and nothing changes. -/
theorem test_loadRom_too_large :
    State.reset.loadRom (List.replicate 3585 0xAA#8) = (.romTooLarge, State.reset) := by
  unfold State.loadRom
  rw [if_pos]
  rw [List.length_replicate]
  decide

/-- F6-01. -/
theorem test_reset_from_a_faulted_state :
    { withRegs [(3, 9)] with
        status := .faulted .stackOverflow 16, disp := lit [(5, 5)], keys := 4,
        mem := Memory.writeAll [] 0x200 [0x12] }.hostReset defaultFont = State.reset := by decide

/-- F5-17, F5-18: a key below 16 is set, another index is ignored. -/
theorem test_setKey :
    (State.reset.setKey 5 true).keys = 1#16 <<< 5 ∧ (State.reset.setKey 15 true).keys = 1#16 <<< 15 ∧
      State.reset.setKey 16 true = State.reset := by decide

/-! ## Witnesses: for each statement with hypotheses, states and operands that meet them, clause by clause -/

/-- The reset state with the word `w` at the pc. -/
def atReset (w : Nat) : State := State.reset.withFetchWord 16 w

/-- The same with another index. -/
def atIndex (i : Half) (w : Nat) : State := { atReset w with i := i }

theorem canRead_of {s : State} {n : Nat} (h : s.i.toNat + n ≤ 0x1000) : CanRead s n := by
  intro k hk
  simp only [BadRead, State.dataAddr]
  omega

theorem canWrite_of {s : State} {n : Nat} (h : 0x0A0 ≤ s.i.toNat ∧ s.i.toNat + n ≤ 0x1000 ∨ s.i.toNat + n ≤ 0x050) :
    CanWrite s n := by
  intro k hk
  simp only [BadWrite, State.dataAddr]
  omega

theorem firstBadRead_of {s : State} {n k : Nat} (hk : k < n) (h : s.i.toNat + k = 0x1000) :
    FirstBad BadRead s n 0x1000 := by
  refine ⟨k, hk, h.symm, by unfold BadRead; decide, fun j hj => ?_⟩
  simp only [BadRead, State.dataAddr]
  omega

theorem firstBadWrite_of {s : State} {n k a : Nat} (hk : k < n) (h : a = s.i.toNat + k)
    (ha : (0x0A0 ≤ s.i.toNat ∧ a = 0x1000) ∨ a = 0x050 ∨ (k = 0 ∧ BadWrite a)) : FirstBad BadWrite s n a := by
  refine ⟨k, hk, h, ?_, fun j hj => ?_⟩
  · rcases ha with ⟨-, rfl⟩ | rfl | ⟨-, h⟩
    · exact .inl (by decide)
    · exact .inr ⟨by decide, by decide⟩
    · exact h
  · simp only [BadWrite, State.dataAddr] at ha ⊢
    omega

/-- ResetSetsEveryPieceOfState: a faulted state to reset. -/
theorem witness_reset : ∃ s : State, s.status ≠ .running ∧ State.reset = s.hostReset defaultFont :=
  ⟨{ State.reset with status := .faulted .stackOverflow 16 }, by decide, by decide⟩

/-- AccessPrimitivesReadWriteAndFault: each clause at the ends of its range. -/
theorem witness_access :
    memRead [] 0xFFF = .ok 0 ∧ memRead [] 0x1000 = .error ⟨.memReadOutOfRange, 0x1000⟩ ∧
      memWrite [] 0x04F 1 = .ok [(0x04F, 1)] ∧ memWrite [] 0x050 1 = .error ⟨.fontWrite, 0x050⟩ ∧
      memWrite [] 0x09F 1 = .error ⟨.fontWrite, 0x09F⟩ ∧ memWrite [] 0x0A0 1 = .ok [(0x0A0, 1)] ∧
      memWrite [] 0xFFF 1 = .ok [(0xFFF, 1)] ∧ memWrite [] 0x1000 1 = .error ⟨.memWriteOutOfRange, 0x1000⟩ ∧
      fetch16 [] 0xFFE = .ok 0 ∧ fetch16 [] 0xFFF = .error ⟨.fetchOutOfRange, 0xFFF⟩ := by decide

/-- CanonicalMemoriesReadingAlikeAreEqual: two orders of writing, one of them over a byte written before. -/
theorem witness_canonical_memories :
    let m := Memory.write (Memory.write [] 0x300 1) 0x200 2
    let m' := Memory.write (Memory.write (Memory.write [] 0x200 2) 0x301 3) 0x300 1
    let m'' := Memory.write m' 0x301 0
    Memory.wf m = true ∧ Memory.wf m'' = true ∧ ∀ a, Memory.read m a = Memory.read m'' a :=
  ⟨by decide, by decide, fun _ => rfl⟩

/-- DecodeOfEncodeIsTheInstruction and DecodedInstructionEncodesToItsWord. -/
theorem witness_encoding :
    (Instr.drw 15 15 15).wellFormed = true ∧ decodeWord 0xDFFF = .ok (.drw 15 15 15) ∧
      (Instr.sys 0xFFF).wellFormed = true ∧ decodeWord 0x0FFF = .ok (.sys 0xFFF) := by decide

/-- EveryRowDecodesByItsPattern: addresses next to the two that are no SYS. -/
theorem witness_sys_pattern :
    (0x0DF#12 ≠ 0x0E0#12 ∧ 0x0DF#12 ≠ 0x0EE#12) ∧ (0x0EF#12 ≠ 0x0E0#12 ∧ 0x0EF#12 ≠ 0x0EE#12) := by decide

/-- UnrecognizedWordsAreReportedAndIgnored, first part: words at the ends of each class's unrecognized values, and their
recognized neighbours. -/
theorem witness_unrecognized_words :
    ([0x5001, 0x500F, 0x8008, 0x800D, 0x800F, 0x9001, 0x900F, 0xE09D, 0xE09F, 0xE0A0, 0xE0A2, 0xF006, 0xF008,
      0xF0FF].all fun w => (decodeWord w).toOption.isNone) = true ∧
    ([0x5000, 0x8007, 0x800E, 0x9000, 0xE09E, 0xE0A1, 0xF007, 0xF065].all fun w => (decodeWord w).toOption.isSome) =
      true := by decide

/-- UnrecognizedWordsAreReportedAndIgnored, second part. -/
theorem witness_unrecognized_step :
    (atReset 0x5001).status = .running ∧ NextWord (atReset 0x5001) 0x5001 ∧ decodeWord 0x5001 = .error .class5 :=
  ⟨rfl, ⟨by decide, by decide⟩, by decide⟩

/-- StepRunsTheDecodedInstruction, its clause on a completed instruction. -/
theorem witness_step_completes :
    (atReset 0x6001).status = .running ∧ NextInstr (atReset 0x6001) (.ldImm 0 1) ∧
      ∃ u, exec (.ldImm 0 1) { atReset 0x6001 with event := .none } = .next u ∧ u.status = .running :=
  ⟨rfl, ⟨by decide, by decide⟩, _, rfl, rfl⟩

/-- StepRunsTheDecodedInstruction, its clause on a faulted instruction. -/
theorem witness_step_faults :
    (atReset 0x00EE).status = .running ∧ NextInstr (atReset 0x00EE) .ret ∧
      ∃ u, exec .ret { atReset 0x00EE with event := .none } = .next u ∧ u.status = .faulted .stackUnderflow 0 :=
  ⟨rfl, ⟨by decide, by decide⟩, _, rfl, rfl⟩

/-- StepRunsTheDecodedInstruction, its clause on a stop. -/
theorem witness_step_stops :
    (badSp.withFetchWord 16 0x00EE).status = .running ∧ NextInstr (badSp.withFetchWord 16 0x00EE) .ret ∧
      exec .ret { badSp.withFetchWord 16 0x00EE with event := .none } = .fault .stackPointerOutOfRange :=
  ⟨rfl, ⟨by decide, by decide⟩, rfl⟩

/-- TimersTickTogetherAtTheEndOfTheStep: FX15, and with it the clause on every instruction but FX18. -/
theorem witness_timers_ldToDt :
    let s := { atReset 0xF215 with inputs := ticked, st := 1 }
    s.status = .running ∧ NextInstr s (.ldToDt 2) ∧ (¬ ∃ x, NextInstr s (.ldToSt x)) ∧
      ∃ t, step s = .next t ∧ t.status = .running := by
  refine ⟨rfl, ⟨by decide, by decide⟩, ?_, _, rfl, rfl⟩
  rintro ⟨x, hx⟩
  have : Instr.ldToSt x = .ldToDt 2 := hx.unique ⟨by decide, by decide⟩
  cases this

/-- TimersTickTogetherAtTheEndOfTheStep: FX18, and with it the clause on every instruction but FX15. -/
theorem witness_timers_ldToSt :
    let s := { atReset 0xF218 with inputs := ticked, dt := 1 }
    s.status = .running ∧ NextInstr s (.ldToSt 2) ∧ (¬ ∃ x, NextInstr s (.ldToDt x)) ∧
      ∃ t, step s = .next t ∧ t.status = .running := by
  refine ⟨rfl, ⟨by decide, by decide⟩, ?_, _, rfl, rfl⟩
  rintro ⟨x, hx⟩
  have : Instr.ldToDt x = .ldToSt 2 := hx.unique ⟨by decide, by decide⟩
  cases this

/-- FaultEntryChangesOnlyStatus and StepFaultsExactlyByTheFaultTable: STACK_OVERFLOW. -/
theorem witness_stackOverflow :
    let s := { atReset 0x2400 with sp := 16 }
    s.status = .running ∧ FaultDue s .stackOverflow 16 ∧
      ∃ t, step s = .next t ∧ t.status = .faulted .stackOverflow 16 :=
  ⟨rfl, ⟨⟨0x400, by decide, by decide⟩, rfl, rfl⟩, _, rfl, rfl⟩

/-- StepFaultsExactlyByTheFaultTable: STACK_UNDERFLOW. -/
theorem witness_stackUnderflow :
    (atReset 0x00EE).status = .running ∧ FaultDue (atReset 0x00EE) .stackUnderflow 0 ∧
      ∃ t, step (atReset 0x00EE) = .next t ∧ t.status = .faulted .stackUnderflow 0 :=
  ⟨rfl, ⟨⟨by decide, by decide⟩, rfl, rfl⟩, _, rfl, rfl⟩

/-- StepFaultsExactlyByTheFaultTable, FetchAboveTheLastPairFaults: a fetch at the first illegal address. -/
theorem witness_fetchOutOfRange :
    let s := { State.reset with pc := 0xFFF }
    s.status = .running ∧ 0xFFE < s.pc.toNat ∧ FaultDue s .fetchOutOfRange 0xFFF ∧
      ∃ t, step s = .next t ∧ t.status = .faulted .fetchOutOfRange 0xFFF :=
  ⟨rfl, by decide, ⟨by decide, rfl⟩, _, rfl, rfl⟩

/-- StepFaultsExactlyByTheFaultTable: MEM_READ_OUT_OF_RANGE (F3-21). -/
theorem witness_memReadOutOfRange :
    (atIndex 0xFFF 0xF165).status = .running ∧ FaultDue (atIndex 0xFFF 0xF165) .memReadOutOfRange 0x1000 ∧
      ∃ t, step (atIndex 0xFFF 0xF165) = .next t ∧ t.status = .faulted .memReadOutOfRange 0x1000 :=
  ⟨rfl, ⟨.ldRegs 1, ⟨by decide, by decide⟩, firstBadRead_of (k := 1) (by decide) (by decide)⟩, _, rfl, rfl⟩

/-- StepFaultsExactlyByTheFaultTable: MEM_WRITE_OUT_OF_RANGE (F3-15). -/
theorem witness_memWriteOutOfRange :
    (atIndex 0xFFE 0xF255).status = .running ∧ FaultDue (atIndex 0xFFE 0xF255) .memWriteOutOfRange 0x1000 ∧
      ∃ t, step (atIndex 0xFFE 0xF255) = .next t ∧ t.status = .faulted .memWriteOutOfRange 0x1000 :=
  ⟨rfl, ⟨.stRegs 2, ⟨by decide, by decide⟩, firstBadWrite_of (k := 2) (by decide) (by decide)
    (.inl ⟨by decide, rfl⟩), by decide⟩, _, rfl, rfl⟩

/-- StepFaultsExactlyByTheFaultTable: FONT_WRITE (F3-12). -/
theorem witness_fontWrite :
    (atIndex 0x04E 0xF533).status = .running ∧ FaultDue (atIndex 0x04E 0xF533) .fontWrite 0x050 ∧
      ∃ t, step (atIndex 0x04E 0xF533) = .next t ∧ t.status = .faulted .fontWrite 0x050 :=
  ⟨rfl, ⟨.ldB 5, ⟨by decide, by decide⟩, firstBadWrite_of (k := 2) (by decide) (by decide)
    (.inr (.inl rfl)), by decide, by decide⟩, _, rfl, rfl⟩

/-- FaultedBlockIsQuiescent, and its clause on another operation than Reset (F6-02). -/
theorem witness_faulted :
    let s := { State.reset with status := .faulted .fontWrite 0x050 }
    s.status = .faulted .fontWrite 0x050 ∧ HostOp.loadRom [0x00, 0xE0] ≠ .reset ∧
      ∃ t, s.hostOp otherFont (.loadRom [0x00, 0xE0]) = .next (t, .load .loadOk) := ⟨rfl, by decide, _, rfl⟩

/-- EveryStepWithALegalStackPointerAnswersNext at the greatest legal SP, StackPointerAboveSixteenStopsCallAndRet at the
least other. -/
theorem witness_stack_pointers :
    { State.reset with sp := 16 }.sp.toNat ≤ 16 ∧ 16 < badSp.sp.toNat := by decide

theorem inv_reset : Inv defaultFont State.reset where
  mem := rfl
  font := by decide
  sp := by decide
  stack := by decide
  pc := by decide
  status := trivial

/-- EveryStepKeepsTheInvariant, on a step that runs an instruction. -/
theorem witness_invariant : Inv defaultFont State.reset ∧ ∃ t, step State.reset = .next t := ⟨inv_reset, _, rfl⟩

/-- EveryStepKeepsTheInvariant, on a faulted state. -/
theorem witness_invariant_faulted :
    let s := { State.reset with status := .faulted .stackUnderflow 0 }
    Inv defaultFont s ∧ ∃ t, step s = .next t :=
  ⟨⟨rfl, by decide, by decide, by decide, by decide, ⟨rfl, rfl⟩⟩, _, rfl⟩

/-- EveryStepKeepsTheInvariant, on a block with another `FONT`. -/
theorem witness_invariant_other_font :
    Inv otherFont (State.resetWith otherFont) ∧ ∃ t, step (State.resetWith otherFont) = .next t :=
  ⟨⟨by decide, by decide, by decide, by decide, by decide, trivial⟩, _, rfl⟩

/-- EveryHostOperationKeepsTheInvariant, on each operation. -/
theorem witness_hostOps :
    Inv defaultFont State.reset ∧
      ∀ op ∈ [HostOp.reset, .loadRom [0x12, 0x00], .step true 0x5A, .setKey 15 true, .readDisplay],
        ∃ p, State.reset.hostOp defaultFont op = .next p := by
  refine ⟨inv_reset, fun op h => ?_⟩
  simp only [List.mem_cons, List.not_mem_nil, or_false] at h
  rcases h with rfl | rfl | rfl | rfl | rfl <;> exact ⟨_, rfl⟩

/-- CallPushesTheReturnAddress and RetPopsTheReturnAddress: the SP values at which the clauses meet. -/
theorem witness_call_ret :
    State.reset.sp.toNat < 16 ∧ { State.reset with sp := 15 }.sp.toNat < 16 ∧
      { State.reset with sp := 16 }.sp.toNat = 16 ∧ State.reset.sp.toNat = 0 ∧
      { State.reset with sp := 1 }.sp.toNat = (0 : Fin 16).val + 1 ∧
      { State.reset with sp := 16 }.sp.toNat = (15 : Fin 16).val + 1 := by decide

/-- JpV0AddsTheRegisterOfTheHighNibble at the least and the greatest register. -/
theorem witness_jpV0 :
    (0 : Reg).val = (0x0FF#12).toNat / 0x100 ∧ (15 : Reg).val = (0xF00#12).toNat / 0x100 := by decide

/-- BitwiseOperationsClearTheFlag, AddRegWrapsAndSetsCarry, SubtractsWrapAndSetNoBorrow, ShiftsMoveOneBitIntoTheFlag: a
destination that is not VF. -/
theorem witness_not_VF : (14 : Reg) ≠ VF := by decide

/-- RndMasksTheStepsRandomByte: a random byte laid out by the host. -/
theorem witness_rnd_input : { State.reset with inputs := ticked }.inputs = ⟨true, 0#8⟩ :: [] := rfl

/-- LdBStoresTheDecimalDigits and StRegsStoresTheFirstRegisters: legal stores at the ends of the two writable ranges. -/
theorem witness_canWrite :
    CanWrite (atIndex 0xFFD 0xF533) 3 ∧ CanWrite (atIndex 0x04D 0xF533) 3 ∧ CanWrite (atIndex 0x0A0 0xF533) 3 ∧
      CanWrite (atIndex 0xFF0 0xFF55) ((15 : Reg).val + 1) :=
  ⟨canWrite_of (by decide), canWrite_of (by decide), canWrite_of (by decide), canWrite_of (by decide)⟩

/-- The same two: stores that end outside the address space, at the last access and at the first. -/
theorem witness_write_out_of_range :
    FirstBad BadWrite (atIndex 0xFFE 0xF533) 3 0x1000 ∧
      FirstBad BadWrite (atIndex 0xFFFF 0xF055) ((0 : Reg).val + 1) 0xFFFF :=
  ⟨firstBadWrite_of (k := 2) (by decide) (by decide) (.inl ⟨by decide, rfl⟩),
    firstBadWrite_of (k := 0) (by decide) (by decide) (.inr (.inr ⟨rfl, .inl (by decide)⟩))⟩

/-- The same two: stores into the fontset, at its first byte and at its last. -/
theorem witness_font_write :
    FirstBad BadWrite (atIndex 0x04E 0xF533) 3 0x050 ∧ FirstBad BadWrite (atIndex 0x09F 0xF533) 3 0x09F ∧
      FirstBad BadWrite (atIndex 0x04F 0xF155) ((1 : Reg).val + 1) 0x050 :=
  ⟨firstBadWrite_of (k := 2) (by decide) (by decide) (.inr (.inl rfl)),
    firstBadWrite_of (k := 0) (by decide) (by decide) (.inr (.inr ⟨rfl, .inr ⟨by decide, by decide⟩⟩)),
    firstBadWrite_of (k := 1) (by decide) (by decide) (.inr (.inl rfl))⟩

/-- LdRegsLoadsTheFirstRegisters and DrwInvertsTheSpritePixelsAndSetsCollision: legal reads up to the last byte, and a
sprite of no rows with any index. -/
theorem witness_canRead :
    CanRead (atIndex 0xFF0 0xFF65) ((15 : Reg).val + 1) ∧ CanRead (atIndex 0xFF1 0xD01F) (15#4).toNat ∧
      CanRead (atIndex 0x2000 0xD010) (0#4).toNat :=
  ⟨canRead_of (by decide), canRead_of (by decide), fun k hk => absurd hk (by simp)⟩

/-- The same two: a read above 0xFFF. -/
theorem witness_read_out_of_range :
    FirstBad BadRead (atIndex 0xFFF 0xF165) ((1 : Reg).val + 1) 0x1000 ∧
      FirstBad BadRead (atIndex 0x1000 0xD011) (1#4).toNat 0x1000 :=
  ⟨firstBadRead_of (k := 1) (by decide) (by decide), firstBadRead_of (k := 0) (by decide) (by decide)⟩

/-- StoredRegistersAreFetchedNext. -/
theorem witness_stored_then_fetched :
    CanWrite (atIndex 0x20A 0xF155) ((1 : Reg).val + 1) ∧ (∃ t, exec (.stRegs 1) (atIndex 0x20A 0xF155) = .next t) ∧
      (1 : Reg).val = (0 : Reg).val + 1 ∧ (1 : Reg) ≤ 1 :=
  ⟨canWrite_of (by decide), ⟨_, rfl⟩, rfl, by decide⟩

/-- StepsChangeMemoryOnlyByStores: a step that changes a byte. -/
theorem witness_memory_change :
    let s := { atIndex 0x300 0xF055 with v := State.reset.v.set 0 0xAA }
    ∃ t, step s = .next t ∧ Memory.read t.mem 0x300 ≠ Memory.read s.mem 0x300 := ⟨_, rfl, by decide⟩

/-- A display with the pixel (0, 0) lit, over a sprite of one row 0x80 at 0x300. -/
def overLitPixel : State := { atIndex 0x300 0xD011 with mem := memAt300 [0x80], disp := lit [(0, 0)] }

/-- DrwInvertsTheSpritePixelsAndSetsCollision: a pixel that the sprite falls on. -/
theorem witness_drw_hit : SpriteHits overLitPixel 0 0 1 0 0 ∧ ¬ SpriteHits overLitPixel 0 0 1 0 1 := by
  refine ⟨⟨0, 0, by decide, by decide, by decide, by decide, by decide⟩, ?_⟩
  rintro ⟨r, b, hr, -, -, -, hy⟩
  have : r = 0 := by omega
  subst this
  revert hy
  decide

/-- DrwInvertsTheSpritePixelsAndSetsCollision: a draw that puts a lit pixel out, and one that puts none out. -/
theorem witness_drw_collision :
    (∃ t, exec (.drw 0 1 1) overLitPixel = .next t ∧ overLitPixel.disp.pix 0 0 = true ∧ t.disp.pix 0 0 = false) ∧
      ∃ t, exec (.drw 0 1 0) overLitPixel = .next t ∧
        ¬ ∃ px py, overLitPixel.disp.pix px py = true ∧ t.disp.pix px py = false := by
  refine ⟨⟨_, rfl, by decide, by decide⟩, _, rfl, ?_⟩
  rintro ⟨px, py, h, h'⟩
  have e : overLitPixel.disp.pix px py = false := h'
  rw [h] at e
  cases e

/-- DrwTakesItsOriginModuloTheGrid: the origins (0, 0) and (64, 32), and one register for both coordinates. -/
theorem witness_drw_origin :
    let s := overLitPixel
    let s' := (s.writeV 1 32).writeV 0 64
    OnlyChanges (fun r => r = 0 ∨ r = 1) [] s s' ∧ (s'.readV 0).toNat % 64 = (s.readV 0).toNat % 64 ∧
      (s'.readV 1).toNat % 32 = (s.readV 1).toNat % 32 ∧ (∃ t, exec (.drw 0 1 1) s = .next t) ∧
      (∃ t, exec (.drw 0 1 1) s' = .next t) ∧ CanRead s (1#4).toNat := by
  refine ⟨?_, by decide, by decide, ⟨_, rfl⟩, ⟨_, rfl⟩, canRead_of (by decide)⟩
  exact ((State.writeV_frame _ 1 32).mono (fun r h => .inr h) (fun _ h => h)).trans
    ((State.writeV_frame _ 0 64).mono (fun r h => .inl h) (fun _ h => h))

/-- DrawingTwiceRestoresTheDisplay: from a lit pixel and from a blank display. -/
theorem witness_draw_twice :
    ∀ s ∈ [overLitPixel, { overLitPixel with disp := Display.blank }],
      (0 : Reg) ≠ VF ∧ (1 : Reg) ≠ VF ∧ CanRead s (1#4).toNat ∧
        ∃ t u, exec (.drw 0 1 1) s = .next t ∧ exec (.drw 0 1 1) t = .next u := by
  intro s h
  simp only [List.mem_cons, List.not_mem_nil, or_false] at h
  rcases h with rfl | rfl <;>
    exact ⟨by decide, by decide, canRead_of (by decide), _, _, rfl, rfl⟩

/-- DisplaySnapshotIsRowMajorAndStaysValid: a step that completes neither CLS nor DRW. -/
theorem witness_snapshot :
    ∃ t, step (atReset 0x6001) = .next t ∧ (t.status = .running →
      ¬ NextInstr (atReset 0x6001) .cls ∧ ∀ x y n, ¬ NextInstr (atReset 0x6001) (.drw x y n)) := by
  have hi : NextInstr (atReset 0x6001) (.ldImm 0 1) := ⟨by decide, by decide⟩
  refine ⟨_, rfl, fun _ => ⟨fun h => ?_, fun x y n h => ?_⟩⟩
  · exact nomatch h.unique hi
  · exact nomatch h.unique hi

/-- DisplaySnapshotIsRowMajorAndStaysValid: a step whose DRW faults. -/
theorem witness_snapshot_faulting_draw :
    ∃ t, step (atIndex 0xFFF 0xD012) = .next t ∧ t.status = .faulted .memReadOutOfRange 0x1000 := ⟨_, rfl, rfl⟩

/-- KeySkipsTestTheUnmaskedKeyIndex: the greatest key pressed, and an index just above the keys. -/
theorem witness_key_skips :
    let s := { withRegs [(0, 15), (1, 16)] with keys := 0xFFFF#16 }
    ((s.readV 0).toNat < 16 ∧ s.keys.getLsbD (s.readV 0).toNat = true) ∧
      ¬ ((s.readV 1).toNat < 16 ∧ s.keys.getLsbD (s.readV 1).toNat = true) := by decide

/-- KeyWaitTakesTheLowestKeyOrRearms: the least key, the greatest key alone, and no key. -/
theorem witness_key_wait :
    ({ State.reset with keys := 0xFFFF#16 }.keys.getLsbD (0 : Fin 16).val = true ∧
      ∀ j : Fin 16, j < 0 → { State.reset with keys := 0xFFFF#16 }.keys.getLsbD j.val = false) ∧
    ({ State.reset with keys := 0x8000#16 }.keys.getLsbD (15 : Fin 16).val = true ∧
      ∀ j : Fin 16, j < 15 → { State.reset with keys := 0x8000#16 }.keys.getLsbD j.val = false) ∧
    ∀ k : Fin 16, State.reset.keys.getLsbD k.val = false := by decide

/-- NoStepWritesTheKeyState, SoundTimerCannotBeObserved: a step. -/
theorem witness_step : ∃ t, step { State.reset with keys := 4, st := 9 } = .next t := ⟨_, rfl⟩

/-- StepsChangeVfOnlyByFlagsOrAsDestination: a step that changes VF. -/
theorem witness_vf_change :
    ∃ t, step (atReset 0x6F42) = .next t ∧ t.readV VF ≠ (atReset 0x6F42).readV VF := ⟨_, rfl, by decide⟩

/-- StepsChangeTheIndexOnlyByItsWriters: a step that changes `I`. -/
theorem witness_index_change : ∃ t, step (atReset 0xA300) = .next t ∧ t.i ≠ (atReset 0xA300).i := ⟨_, rfl, by decide⟩

/-- StepsChangeTheStackOnlyByCallAndRet: a step that changes SP and an entry. -/
theorem witness_stack_change :
    ∃ t, step (atReset 0x2400) = .next t ∧ t.sp ≠ (atReset 0x2400).sp ∧
      t.readStack 0 ≠ (atReset 0x2400).readStack 0 := ⟨_, rfl, by decide, by decide⟩

/-- StepsMoveThePcByTheListedWays: a completed step. -/
theorem witness_pc :
    (atReset 0x1234).status = .running ∧ ∃ t, step (atReset 0x1234) = .next t ∧ t.status = .running :=
  ⟨rfl, _, rfl, rfl⟩

/-- RandomByteIsReadOnlyByRnd: a step that runs another instruction. -/
theorem witness_rnd_unread :
    (∀ x kk, ¬ NextInstr (atReset 0x6001) (.rnd x kk)) ∧ ∃ t, (atReset 0x6001).hostStep true 0x5A = .next t := by
  have hi : NextInstr (atReset 0x6001) (.ldImm 0 1) := ⟨by decide, by decide⟩
  refine ⟨fun x kk h => ?_, _, rfl⟩
  exact nomatch h.unique hi

/-- LoadRomStoresAllOrNothing, BootRunsTheRomFromItsFirstWord: the greatest ROM and the first that is too large. -/
theorem witness_rom_sizes :
    (List.replicate 3584 0xAA#8).length ≤ 3584 ∧ 3584 < (List.replicate 3585 0xAA#8).length ∧
      (List.replicate 3582 0xAA#8).length ≤ 3582 := by
  simp only [List.length_replicate]
  decide

/-- SetKeyWritesOneKeyBit: the greatest key and the first index that is none. -/
theorem witness_set_key : 15 < 16 ∧ 16 ≤ 16 := by decide

end Sys2Proof.Tests
end

/-! The state's own rules (10_state.md), settled from `exec_cases` and `step_cases`: what the instructions with more
than one outcome answer, where an instruction leaves the pc, the stack and memory, and the invariant. -/

namespace Sys2Proof.Machine

/-! ## What the instructions with more than one outcome answer -/

theorem State.completeOrFault_cases {s u : State} {made : Except Raised State}
    (h : s.completeOrFault made = .next u) : made = .ok u ∨ ∃ r, u = s.takeFault r := by
  cases made with
  | ok t =>
    cases h
    exact .inl rfl
  | error r =>
    cases h
    exact .inr ⟨r, rfl⟩

theorem State.completeOrFault_answers_next (s : State) (made : Except Raised State) :
    ∃ u, s.completeOrFault made = .next u := by
  cases made <;> exact ⟨_, rfl⟩

theorem exec_call_cases {nnn : Addr12} {s u : State} (h : exec (.call nnn) s = .next u) :
    (∃ j : Fin 16, s.sp.toNat = j.val ∧ u = (s.advance.push j).writePc (addrOperand nnn)) ∨
      ∃ r, u = s.takeFault r := by
  simp only [exec, execCall] at h
  split at h
  · cases h
    exact .inl ⟨_, rfl, rfl⟩
  · split at h
    · cases h
      exact .inr ⟨_, rfl⟩
    · cases h

theorem exec_ret_cases {s u : State} (h : exec .ret s = .next u) :
    (∃ j : Fin 16, s.sp.toNat = j.val + 1 ∧ u = s.advance.pop j) ∨ ∃ r, u = s.takeFault r := by
  simp only [exec, execRet] at h
  split at h
  · cases h
    exact .inr ⟨_, rfl⟩
  · split at h
    · cases h
      exact .inl ⟨⟨s.sp.toNat - 1, by assumption⟩, show s.sp.toNat = s.sp.toNat - 1 + 1 by omega, rfl⟩
    · cases h

theorem exec_ldKey_cases {x : Reg} {s u : State} (h : exec (.ldKey x) s = .next u) :
    (∃ b, u = s.advance.writeV x b) ∨ u = s.advance.writePc (s.advance.pc - 2#16) := by
  simp only [exec, execLdKey] at h
  split at h <;> cases h
  · exact .inl ⟨_, rfl⟩
  · exact .inr rfl

theorem exec_drw_cases {x y : Reg} {n : Nibble} {s u : State} (h : exec (.drw x y n) s = .next u) :
    (∃ c, u = s.advance.showCanvas c) ∨ ∃ r, u = s.takeFault r := by
  refine (State.completeOrFault_cases h).imp_left fun e => ?_
  split at e <;> cases e
  exact ⟨_, rfl⟩

theorem exec_ldRegs_cases {x : Reg} {s u : State} (h : exec (.ldRegs x) s = .next u) :
    (∃ v, u = { s.advance with v := v }.writeI (s.indexAfter x)) ∨ ∃ r, u = s.takeFault r := by
  refine (State.completeOrFault_cases h).imp_left fun e => ?_
  split at e <;> cases e
  exact ⟨_, rfl⟩

/-- A store that answers `u` wrote its bytes and advanced, or faulted. -/
theorem State.storeThenIndex_next {s u : State} {bs : List Byte} {after : Half}
    (h : s.storeThenIndex bs after = .next u) :
    (∃ m, writeBytes s.mem s.i.toNat bs = .ok m ∧ u = { s.advance with mem := m }.writeI after) ∨
      ∃ r, u = s.takeFault r := by
  rcases s.storeThenIndex_cases bs after with ⟨m, hm, e⟩ | ⟨r, -, e⟩ <;> rw [e] at h <;> cases h
  · exact .inl ⟨m, hm, rfl⟩
  · exact .inr ⟨r, rfl⟩

/-! ## Progress -/

/-- Only CALL and RET can stop, and an `SP` of at most 16 keeps them from it (10_state.md R26). -/
theorem exec_answers_next (i : Instr) {s : State} (hsp : s.sp.toNat ≤ 16) : ∃ u, exec i s = .next u := by
  cases i with
  | call nnn =>
    simp only [exec, execCall]
    split
    · exact ⟨_, rfl⟩
    · exact ⟨_, if_pos (by omega)⟩
  | ret =>
    simp only [exec, execRet]
    split
    · exact ⟨_, rfl⟩
    · exact ⟨_, dif_pos (by omega)⟩
  | ldKey x =>
    simp only [exec, execLdKey]
    split <;> exact ⟨_, rfl⟩
  | drw | ldB | stRegs | ldRegs => exact s.completeOrFault_answers_next _
  | _ => exact ⟨_, rfl⟩

/-- Settles O14: an instruction answers a next state, and the other three kinds of step always do. -/
theorem everyStepWithALegalStackPointerAnswersNext : Obligations.EveryStepWithALegalStackPointerAnswersNext := by
  intro s hsp
  rcases step_cases s with ⟨c, n, -, e⟩ | ⟨-, -, e⟩ | ⟨-, w, u, -, -, e⟩ | ⟨-, i, -, e⟩
  · exact ⟨_, e⟩
  · exact ⟨_, e⟩
  · exact ⟨_, e⟩
  · obtain ⟨u, hu⟩ := exec_answers_next i (s := s.beginStep) hsp
    exact ⟨_, e.trans (finishStep_eq_next.2 ⟨u, hu, rfl⟩)⟩

/-- Settles O15: an `SP` above 16 passes neither test of CALL and neither test of RET. -/
theorem stackPointerAboveSixteenStopsCallAndRet : Obligations.StackPointerAboveSixteenStopsCallAndRet := by
  intro s nnn hsp
  constructor
  · show execCall nnn s = _
    rw [execCall, dif_neg (by omega), if_neg (by omega)]
  · show execRet s = _
    rw [execRet, if_neg (by omega), dif_neg (by omega)]

/-! ## Where an instruction leaves the pc (10_state.md R24) -/

/-- The pc `p` is where the instruction at `s` may leave it when it completes. -/
inductive PcMove (s : State) : Instr → Half → Prop
  | next (i : Instr) : PcMove s i (s.pc + 2#16)
  | skip {i : Instr} (x y : Reg) (kk : Byte)
      (hi : i ∈ [.seImm x kk, .sneImm x kk, .seReg x y, .sneReg x y, .skp x, .sknp x]) : PcMove s i (s.pc + 4#16)
  | wait (x : Reg) : PcMove s (.ldKey x) s.pc
  | jp (nnn : Addr12) : PcMove s (.jp nnn) (addrOperand nnn)
  | call (nnn : Addr12) : PcMove s (.call nnn) (addrOperand nnn)
  | jpV0 (nnn : Addr12) : PcMove s (.jpV0 nnn) (addrOperand nnn + widen (s.readV (offsetReg nnn)))
  | ret (j : Fin 16) : PcMove s .ret (s.readStack j)

/-- A skip moves the pc by two, or by two and two more (40_control_flow.md R131). -/
theorem PcMove.of_skipIf {s : State} {i : Instr} (x y : Reg) (kk : Byte)
    (hi : i ∈ [.seImm x kk, .sneImm x kk, .seReg x y, .sneReg x y, .skp x, .sknp x]) (taken : Bool) :
    PcMove s i (s.advance.skipIf taken).pc := by
  cases taken with
  | false => exact .next i
  | true =>
    have two_and_two : (s.advance.skipIf true).pc = s.pc + 4#16 := BitVec.add_assoc s.pc 2#16 2#16
    exact two_and_two ▸ .skip x y kk hi

/-- Everything a completed instruction can do to the pc. -/
theorem exec_pcMove {i : Instr} {s u : State} (h : exec i s = .next u) (hu : u.status = .running) :
    PcMove s i u.pc := by
  have no_fault : ∀ {r}, u ≠ s.takeFault r := by
    rintro r rfl
    cases hu
  cases i with
  | seImm x kk | sneImm x kk => cases h; exact .of_skipIf x 0 kk (by simp) _
  | seReg x y | sneReg x y => cases h; exact .of_skipIf x y 0 (by simp) _
  | skp x | sknp x => cases h; exact .of_skipIf x 0 0 (by simp) _
  | jp nnn => cases h; exact .jp nnn
  | jpV0 nnn => cases h; exact .jpV0 nnn
  | call nnn =>
    obtain ⟨j, -, rfl⟩ | ⟨r, e⟩ := exec_call_cases h
    · exact .call nnn
    · exact absurd e no_fault
  | ret =>
    obtain ⟨j, -, rfl⟩ | ⟨r, e⟩ := exec_ret_cases h
    · exact .ret j
    · exact absurd e no_fault
  | ldKey x =>
    obtain ⟨b, rfl⟩ | rfl := exec_ldKey_cases h
    · exact .next _
    · have back : s.advance.pc - 2#16 = s.pc := BitVec.add_sub_cancel ..
      exact back.symm ▸ PcMove.wait x
  | drw x y n =>
    obtain ⟨c, rfl⟩ | ⟨r, e⟩ := exec_drw_cases h
    · exact .next _
    · exact absurd e no_fault
  | ldRegs x =>
    obtain ⟨v, rfl⟩ | ⟨r, e⟩ := exec_ldRegs_cases h
    · exact .next _
    · exact absurd e no_fault
  | ldB | stRegs =>
    obtain ⟨m, -, rfl⟩ | ⟨r, e⟩ := State.storeThenIndex_next h
    · exact .next _
    · exact absurd e no_fault
  | _ => cases h; exact .next _

theorem addrOperand_toNat_le (nnn : Addr12) : (addrOperand nnn).toNat ≤ 0xFFF := by
  have := nnn.isLt
  simp only [addrOperand, BitVec.toNat_setWidth]
  omega

theorem widen_toNat_le (b : Byte) : (widen b).toNat ≤ 0xFF := by
  have := b.isLt
  simp only [widen, BitVec.toNat_setWidth]
  omega

/-- "No step leaves a value above 0x10FE in `PC`" (10_state.md R25): JP V0 reaches furthest. -/
theorem PcMove.toNat_le {s : State} {i : Instr} {p : Half} (h : PcMove s i p) (hpc : s.pc.toNat ≤ 0xFFE)
    (hstack : ∀ j, (s.readStack j).toNat ≤ 0x1000) : p.toNat ≤ 0x10FE := by
  cases h with
  | next => rw [BitVec.toNat_add]; simp only [BitVec.toNat_ofNat]; omega
  | skip => rw [BitVec.toNat_add]; simp only [BitVec.toNat_ofNat]; omega
  | wait => omega
  | jp nnn | call nnn => have := addrOperand_toNat_le nnn; omega
  | jpV0 nnn =>
    have := addrOperand_toNat_le nnn
    have := widen_toNat_le (s.readV (offsetReg nnn))
    rw [BitVec.toNat_add]
    omega
  | ret j => have := hstack j; omega

/-- Settles O50: the unrecognized word only advances, and a completed instruction moves the pc as `PcMove` says. -/
theorem stepsMoveThePcByTheListedWays : Obligations.StepsMoveThePcByTheListedWays := by
  intro s t hs h ht
  obtain ⟨c, n, hf, -⟩ | ⟨-, -, rfl⟩ | ⟨-, -, -, w, rfl⟩ |
    ⟨-, i, hi, ⟨r, -, rfl⟩ | ⟨-, u, hu, hr, -, rfl⟩⟩ := step_next_cases h
  · cases hs.symm.trans hf
  · cases ht
  · exact .inl rfl
  · cases ht
  · have move := exec_pcMove hu hr
    show u.pc = _ ∨ (u.pc = _ ∧ _) ∨ (u.pc = _ ∧ _) ∨ _
    generalize u.pc = p at move
    cases move with
    | next => exact .inl rfl
    | skip x y kk hm => exact .inr (.inl ⟨rfl, x, y, kk, i, hi, hm⟩)
    | wait x => exact .inr (.inr (.inl ⟨rfl, x, hi⟩))
    | jp nnn | call nnn | jpV0 nnn => exact .inr (.inr (.inr ⟨nnn, _, hi, by simp⟩))
    | ret => exact .inr (.inr (.inr ⟨0, _, hi, by simp⟩))

/-! ## What a step may change -/

/-- Every step may change these parts, whatever its instruction; an instruction that completes leaves `STATUS`. -/
def stepParts : List Part := [.dt, .st, .status, .event, .supply]

/-- A frame with no register, inside a larger one. -/
theorem OnlyChanges.within {regs : Reg → Prop} {parts parts' : List Part} {s t : State}
    (h : OnlyChanges noReg parts s t) (hp : ∀ p, p ∈ parts → p ∈ parts') : OnlyChanges regs parts' s t :=
  h.mono (fun _ w => w.elim) hp

theorem exec_frame {i : Instr} {s u : State} (h : exec i s = .next u) :
    OnlyChanges (mayWrite i) (mayChange i ++ stepParts) s u := by
  rcases exec_cases h with ⟨r, -, rfl⟩ | ⟨-, f⟩
  · exact (s.takeFault_frame r).within (by simp [stepParts])
  · exact f.mono (fun _ w => w) fun _ hp => List.mem_append_left _ hp

/-- A step that runs no instruction may advance the pc; one that runs an instruction ends as the instruction did, but
for the timers and the inputs. -/
theorem step_exec_cases {s t : State} (h : step s = .next t) :
    OnlyChanges noReg (.pc :: stepParts) s t ∨
      ∃ i u, NextInstr s i ∧ exec i s.beginStep = .next u ∧ OnlyChanges noReg [.dt, .st, .supply] u t := by
  have begun : OnlyChanges noReg (.pc :: stepParts) s s.beginStep := s.beginStep_frame.within (by simp [stepParts])
  obtain ⟨c, n, -, e⟩ | ⟨-, -, e⟩ | ⟨-, w, u, -, -, e⟩ | ⟨-, i, hi, e⟩ := step_cases s <;> rw [e] at h
  · cases h
    exact .inl (begun.trans (s.beginStep.consumeInput_frame.within (by simp [stepParts])))
  · cases h
    have fault := s.beginStep.takeFault_frame ⟨.fetchOutOfRange, s.pc.toNat⟩
    have faulted := begun.trans (fault.within (by simp [stepParts]))
    exact .inl (faulted.trans ((State.consumeInput_frame _).within (by simp [stepParts])))
  · cases h
    have advanced := begun.trans (s.beginStep.advance_frame.within (by simp))
    have reported := advanced.trans ((State.report_frame _ s.pc w).within (by simp [stepParts]))
    exact .inl (reported.trans ((State.afterExecute_frame _).within (by simp [stepParts])))
  · obtain ⟨u, hu, rfl⟩ := finishStep_eq_next.1 h
    exact .inr ⟨i, u, hi, hu, u.afterExecute_frame⟩

/-- The frame of a whole step. -/
theorem step_frame {s t : State} (h : step s = .next t) :
    OnlyChanges noReg (.pc :: stepParts) s t ∨
      ∃ i, NextInstr s i ∧ OnlyChanges (mayWrite i) (mayChange i ++ stepParts) s t := by
  refine (step_exec_cases h).imp_right fun ⟨i, u, hi, hu, after⟩ => ⟨i, hi, ?_⟩
  have executed := (s.beginStep_frame.within (by simp [stepParts])).trans (exec_frame hu)
  exact executed.trans (after.within (by simp [stepParts]))

theorem keys_notMem_mayChange (i : Instr) : Part.keys ∉ mayChange i := by cases i <;> simp [mayChange]

/-- Settles O46: the keys are in no frame. -/
theorem noStepWritesTheKeyState : Obligations.NoStepWritesTheKeyState := by
  intro s t h
  rcases step_frame h with f | ⟨i, -, f⟩
  · exact f.keys (by simp [stepParts])
  · exact f.keys (by simp [stepParts, keys_notMem_mayChange])

/-- The instructions that may write VF (10_state.md R21). -/
theorem mayWrite_VF {i : Instr} (h : mayWrite i VF) : ∃ x y kk n,
    i ∈ [.orReg x y, .andReg x y, .xorReg x y, .addReg x y, .subReg x y, .subnReg x y, .shr x y, .shl x y,
      .drw x y n] ∨
    i ∈ [.ldImm VF kk, .addImm VF kk, .ldReg VF y, .rnd VF kk, .ldFromDt VF, .ldKey VF, .ldRegs VF] := by
  cases i with
  | orReg x y | andReg x y | xorReg x y | addReg x y | subReg x y | subnReg x y | shr x y | shl x y =>
    exact ⟨x, y, 0, 0, .inl (by simp)⟩
  | drw x y n => exact ⟨x, y, 0, n, .inl (by simp)⟩
  | ldImm x kk | addImm x kk | rnd x kk =>
    obtain rfl : VF = x := h
    exact ⟨0, 0, kk, 0, .inr (by simp)⟩
  | ldReg x y =>
    obtain rfl : VF = x := h
    exact ⟨0, y, 0, 0, .inr (by simp)⟩
  | ldFromDt x | ldKey x =>
    obtain rfl : VF = x := h
    exact ⟨0, 0, 0, 0, .inr (by simp)⟩
  | ldRegs x =>
    obtain rfl : VF = x := Fin.ext (Nat.le_antisymm h (Nat.le_of_lt_succ x.isLt))
    exact ⟨0, 0, 0, 0, .inr (by simp)⟩
  | _ => exact h.elim

/-- Settles O47: a step writes no register but those its instruction may write. -/
theorem stepsChangeVfOnlyByFlagsOrAsDestination : Obligations.StepsChangeVfOnlyByFlagsOrAsDestination := by
  intro s t h hne
  rcases step_frame h with f | ⟨i, hi, f⟩
  · exact absurd (f.v VF fun w => w) hne
  · obtain ⟨x, y, kk, n, hm⟩ := mayWrite_VF (of_not_not fun hw => hne (f.v VF hw))
    exact ⟨x, y, kk, n, i, hi, hm⟩

/-- The writers of `I` (10_state.md R23). -/
theorem index_mem_mayChange {i : Instr} (h : .i ∈ mayChange i) :
    ∃ x nnn, i ∈ [.ldI nnn, .addI x, .ldF x, .stRegs x, .ldRegs x] := by
  cases i with
  | ldI nnn => exact ⟨0, nnn, by simp⟩
  | addI x | ldF x | stRegs x | ldRegs x => exact ⟨x, 0, by simp⟩
  | _ => simp [mayChange] at h

/-- Settles O48: a step leaves `I` unless its instruction may change it. -/
theorem stepsChangeTheIndexOnlyByItsWriters : Obligations.StepsChangeTheIndexOnlyByItsWriters := by
  intro s t h hne
  rcases step_frame h with f | ⟨i, hi, f⟩
  · exact absurd (f.i (by simp [stepParts])) hne
  · obtain ⟨x, nnn, hm⟩ := index_mem_mayChange (i := i) (of_not_not fun hw => hne (f.i (by simp [stepParts, hw])))
    exact ⟨x, nnn, i, hi, hm⟩

/-! ## The return stack (10_state.md R26, R27) -/

/-- An instruction leaves `SP` and the entries, or it is a CALL that pushed, or a RET that popped. -/
theorem exec_stack_cases {i : Instr} {s u : State} (h : exec i s = .next u) :
    (u.sp = s.sp ∧ ∀ k, u.readStack k = s.readStack k) ∨
      (∃ nnn, ∃ j : Fin 16, i = .call nnn ∧ s.sp.toNat = j.val ∧
        u = (s.advance.push j).writePc (addrOperand nnn)) ∨
      (∃ j : Fin 16, i = .ret ∧ s.sp.toNat = j.val + 1 ∧ u = s.advance.pop j) := by
  have f := exec_frame h
  cases i with
  | call nnn =>
    obtain ⟨j, hj, e⟩ | ⟨r, rfl⟩ := exec_call_cases h
    · exact .inr (.inl ⟨nnn, j, rfl, hj, e⟩)
    · exact .inl ⟨rfl, fun _ => rfl⟩
  | ret =>
    obtain ⟨j, hj, e⟩ | ⟨r, rfl⟩ := exec_ret_cases h
    · exact .inr (.inr ⟨j, rfl, hj, e⟩)
    · exact .inl ⟨rfl, fun _ => rfl⟩
  | _ => exact .inl ⟨f.sp (by simp [mayChange, stepParts]), f.stack (by simp [mayChange, stepParts])⟩

theorem State.toNat_sp_push {s : State} {j : Fin 16} (hj : s.sp.toNat = j.val) :
    (s.push j).sp.toNat = j.val + 1 := by
  have := j.isLt
  rw [State.push_sp, BitVec.toNat_add, hj]
  simp only [BitVec.toNat_ofNat]
  omega

theorem State.toNat_sp_pop {s : State} {j : Fin 16} (hj : s.sp.toNat = j.val + 1) : (s.pop j).sp.toNat = j.val := by
  have := j.isLt
  rw [State.pop_sp, BitVec.toNat_sub, hj]
  simp only [BitVec.toNat_ofNat]
  omega

/-- Settles O49: `exec_stack_cases`, carried over the rest of the step. -/
theorem stepsChangeTheStackOnlyByCallAndRet : Obligations.StepsChangeTheStackOnlyByCallAndRet := by
  intro s t h
  rcases step_exec_cases h with f | ⟨i, u, hi, hu, f⟩
  · exact ⟨absurd (f.sp (by simp [stepParts])), fun j => absurd (f.stack (by simp [stepParts]) j)⟩
  · rw [f.sp (by simp)]
    simp only [f.stack (by simp)]
    obtain ⟨hsp, hst⟩ | ⟨nnn, j, rfl, hj, rfl⟩ | ⟨j, rfl, hj, rfl⟩ := exec_stack_cases hu
    · exact ⟨absurd hsp, fun j => absurd (hst j)⟩
    · refine ⟨fun _ => .inl ⟨nnn, hi, (State.toNat_sp_push hj).trans (congrArg (· + 1) hj.symm)⟩,
        fun k hk => ⟨⟨nnn, hi⟩, ?_⟩⟩
      have entry : k = j := of_not_not fun hne => hk ((State.readStack_push ..).trans (if_neg hne))
      exact (congrArg Fin.val entry).trans hj.symm
    · exact ⟨fun _ => .inr ⟨hi, (congrArg (· + 1) (State.toNat_sp_pop hj)).trans hj.symm⟩, fun k hk => absurd rfl hk⟩

/-! ## Memory (20_memory.md R54) -/

/-- An instruction leaves memory, or it stored bytes whose every write was legal. -/
theorem exec_mem_cases {i : Instr} {s u : State} (h : exec i s = .next u) :
    u.mem = s.mem ∨ ∃ a bs, writeBytes s.mem a bs = .ok u.mem := by
  cases i with
  | call nnn => obtain ⟨j, -, rfl⟩ | ⟨r, rfl⟩ := exec_call_cases h <;> exact .inl rfl
  | ret => obtain ⟨j, -, rfl⟩ | ⟨r, rfl⟩ := exec_ret_cases h <;> exact .inl rfl
  | ldKey x => obtain ⟨b, rfl⟩ | rfl := exec_ldKey_cases h <;> exact .inl rfl
  | drw x y n => obtain ⟨c, rfl⟩ | ⟨r, rfl⟩ := exec_drw_cases h <;> exact .inl rfl
  | ldRegs x => obtain ⟨v, rfl⟩ | ⟨r, rfl⟩ := exec_ldRegs_cases h <;> exact .inl rfl
  | ldB | stRegs =>
    obtain ⟨m, hm, rfl⟩ | ⟨r, rfl⟩ := State.storeThenIndex_next h
    · exact .inr ⟨_, _, hm⟩
    · exact .inl rfl
  | seImm | sneImm | seReg | sneReg | skp | sknp => cases h; exact .inl (State.skipIf_mem ..)
  | _ => cases h; exact .inl rfl

/-- Writes that all succeed touch no byte of the fontset, as each of its bytes would fault (20_memory.md R54, R61). -/
theorem read_writeBytes_fontset {m m' : Memory} {a b : Nat} {bs : List Byte} (h : writeBytes m a bs = .ok m')
    (hb : inFontset b = true) : Memory.read m' b = Memory.read m b := by
  obtain ⟨legal, e⟩ | ⟨k, -, -, ⟨-, e⟩ | ⟨-, -, e⟩⟩ := writeBytes_cases m a bs <;> rw [e] at h <;> cases h
  rw [Memory.read_writeAll, dif_neg]
  rintro ⟨hab, hlt⟩
  have clear := (legal (b - a) hlt).2
  rw [Nat.add_sub_cancel' hab, hb] at clear
  cases clear

/-! ## The invariant -/

theorem FirstBad.bad {bad : Nat → Prop} {s : State} {count n : Nat} (h : FirstBad bad s count n) : bad n := by
  obtain ⟨k, -, -, hb, -⟩ := h
  exact hb

/-- A state that records the fault an instruction raises at `s` records it truly (60_exceptions.md R230). -/
theorem Raises.statusTruthful {s t : State} {i : Instr} {r : Raised} (h : Raises s i r) (hsp : t.sp = s.sp)
    (ht : t.status = .faulted r.cause r.info) : StatusTruthful t := by
  obtain ⟨cause, info⟩ := r
  have access : (cause = .memReadOutOfRange ∧ FirstBad BadRead s (dataReads i) info) ∨
      (cause = .memWriteOutOfRange ∧ FirstBad BadWrite s (dataWrites i) info ∧ 0xFFF < info) ∨
      (cause = .fontWrite ∧ FirstBad BadWrite s (dataWrites i) info ∧ 0x050 ≤ info ∧ info ≤ 0x09F) →
      StatusTruthful t := by
    rw [StatusTruthful, ht]
    rintro (⟨rfl, first⟩ | ⟨rfl, -, range⟩ | ⟨rfl, -, range⟩)
    · exact first.bad
    · exact range
    · exact range
  cases i with
  | call nnn =>
    obtain ⟨h16, e⟩ := h
    cases e
    rw [StatusTruthful, ht, hsp]
    exact ⟨h16, rfl⟩
  | ret =>
    obtain ⟨h0, e⟩ := h
    cases e
    rw [StatusTruthful, ht, hsp]
    exact ⟨h0, rfl⟩
  | _ => exact access h

/-- The invariant reads memory, `SP`, the stack, the pc and `STATUS` only. -/
theorem Inv.of_fields {font : Config.Font} {s t : State} (h : Inv font s) (mem : t.mem = s.mem) (sp : t.sp = s.sp)
    (stack : t.stack = s.stack) (pc : t.pc.toNat ≤ 0x10FE) (status : StatusTruthful t) : Inv font t where
  mem := mem ▸ h.mem
  font k hk := by rw [mem, h.font k hk]
  sp := sp ▸ h.sp
  stack j := by rw [State.readStack, stack]; exact h.stack j
  pc := pc
  status := status

theorem StatusTruthful.of_running {s : State} (h : s.status = .running) : StatusTruthful s := by
  rw [StatusTruthful, h]
  trivial

/-- An instruction that completes, fetched at a legal pc, keeps the invariant. -/
theorem exec_keeps_inv {font : Config.Font} {i : Instr} {s u : State} (inv : Inv font s) (hpc : s.pc.toNat ≤ 0xFFE)
    (h : exec i s = .next u) (hu : u.status = .running) : Inv font u where
  mem := by
    rcases exec_mem_cases h with e | ⟨a, bs, e⟩
    · rw [e, inv.mem]
    · exact writeBytes_wf inv.mem e
  font k hk := by
    rw [← inv.font k hk]
    rcases exec_mem_cases h with e | ⟨a, bs, e⟩
    · rw [e]
    · exact read_writeBytes_fontset e ((inFontset_iff _).2 (by omega))
  sp := by
    have := inv.sp
    obtain ⟨hsp, -⟩ | ⟨nnn, j, -, hj, rfl⟩ | ⟨j, -, hj, rfl⟩ := exec_stack_cases h
    · rwa [hsp]
    · exact (State.toNat_sp_push (s := s.advance) hj).trans_le j.isLt
    · exact (State.toNat_sp_pop (s := s.advance) hj).trans_le j.isLt.le
  stack k := by
    obtain ⟨-, hst⟩ | ⟨nnn, j, -, hj, rfl⟩ | ⟨j, -, hj, rfl⟩ := exec_stack_cases h
    · rw [hst]
      exact inv.stack k
    · show ((s.advance.push j).readStack k).toNat ≤ 0x1000
      rw [State.readStack_push]
      split
      · rw [State.advance_pc, BitVec.toNat_add]
        simp only [BitVec.toNat_ofNat]
        omega
      · exact inv.stack k
    · exact inv.stack k
  pc := (exec_pcMove h hu).toNat_le hpc inv.stack
  status := .of_running hu

/-- Settles O17: each kind of step keeps the invariant; where no instruction completes, only the pc's advance and the
fault recorded are new. -/
theorem everyStepKeepsTheInvariant : Obligations.EveryStepKeepsTheInvariant := by
  intro font s t inv h
  obtain ⟨c, n, hf, rfl⟩ | ⟨-, hpc, rfl⟩ | ⟨hs, hpc, -, w, rfl⟩ | ⟨hs, i, hi, ⟨r, hr, rfl⟩ | ⟨-, u, hu, hrun, -, rfl⟩⟩ :=
    step_next_cases h
  · exact inv.of_fields rfl rfl rfl inv.pc inv.status
  · exact inv.of_fields rfl rfl rfl inv.pc ⟨hpc, rfl⟩
  · refine inv.of_fields rfl rfl rfl ?_ (.of_running hs)
    exact (PcMove.next (s := s) .cls).toNat_le hpc inv.stack
  · exact inv.of_fields rfl rfl rfl inv.pc (hr.statusTruthful rfl rfl)
  · have begun : Inv font s.beginStep := inv.of_fields rfl rfl rfl inv.pc inv.status
    have done : Inv font u := exec_keeps_inv begun hi.1 hu hrun
    exact done.of_fields rfl rfl rfl done.pc done.status

/-! ## The sound timer (10_state.md R29) -/

/-- The state with another `ST`. -/
def State.withSt (s : State) (b : Byte) : State := { s with st := b }

@[simp] theorem State.withSt_mem (s : State) (b : Byte) : (s.withSt b).mem = s.mem := rfl
@[simp] theorem State.withSt_dataAddr (s : State) (b : Byte) (k : Nat) : (s.withSt b).dataAddr k = s.dataAddr k := rfl
@[simp] theorem State.withSt_lowestKey (s : State) (b : Byte) : (s.withSt b).lowestKey = s.lowestKey := rfl

theorem State.skipIf_withSt (s : State) (b : Byte) (taken : Bool) :
    (s.withSt b).skipIf taken = (s.skipIf taken).withSt b := by
  cases taken <;> rfl

theorem State.completeOrFault_withSt {s u : State} {made made' : Except Raised State} (b : Byte)
    (h : s.completeOrFault made = .next u) (hm : made' = made.map (·.withSt b)) :
    (s.withSt b).completeOrFault made' = .next (u.withSt b) := by
  subst hm
  cases made <;> cases h <;> rfl

theorem State.storeThenIndex_withSt {s u : State} {bs : List Byte} {after : Half} (b : Byte)
    (h : s.storeThenIndex bs after = .next u) : (s.withSt b).storeThenIndex bs after = .next (u.withSt b) := by
  refine State.completeOrFault_withSt b h ?_
  rw [State.withSt_mem, State.withSt_dataAddr]
  cases writeBytes s.mem (s.dataAddr 0) bs <;> rfl

/-- An instruction does the same with another `ST`, and leaves some `ST` behind. -/
theorem exec_withSt {i : Instr} {s u : State} (b : Byte) (h : exec i s = .next u) :
    ∃ b', exec i (s.withSt b) = .next (u.withSt b') := by
  cases i with
  | ldToSt x => cases h; exact ⟨s.readV x, rfl⟩
  | seImm | sneImm | seReg | sneReg | skp | sknp =>
    cases h
    exact ⟨b, congrArg Host.Outcome.next (s.advance.skipIf_withSt b _)⟩
  | call nnn =>
    simp only [exec, execCall] at h
    split at h
    · cases h
      exact ⟨b, dif_pos ‹_›⟩
    · split at h <;> cases h
      exact ⟨b, (dif_neg ‹_›).trans (if_pos ‹_›)⟩
  | ret =>
    simp only [exec, execRet] at h
    split at h
    · cases h
      exact ⟨b, if_pos ‹_›⟩
    · split at h <;> cases h
      exact ⟨b, (if_neg ‹_›).trans (dif_pos ‹_›)⟩
  | ldKey x =>
    simp only [exec, execLdKey, State.withSt_lowestKey] at h ⊢
    split at h <;> cases h <;> exact ⟨b, rfl⟩
  | drw x y n =>
    refine ⟨b, State.completeOrFault_withSt b h ?_⟩
    rw [State.withSt_mem, State.withSt_dataAddr]
    cases readBytes s.mem (s.dataAddr 0) n.toNat <;> rfl
  | ldRegs x =>
    refine ⟨b, State.completeOrFault_withSt b h ?_⟩
    rw [State.withSt_mem, State.withSt_dataAddr]
    cases readBytes s.mem (s.dataAddr 0) (regCount x) <;> rfl
  | ldB | stRegs => exact ⟨b, State.storeThenIndex_withSt b h⟩
  | _ => cases h; exact ⟨b, rfl⟩

theorem State.afterExecute_withSt (u : State) (b : Byte) :
    ∃ b', (u.withSt b).afterExecute = u.afterExecute.withSt b' := by
  cases hu : u.status with
  | running =>
    rw [State.afterExecute_running hu, State.afterExecute_running (t := u.withSt b) hu]
    exact ⟨countDown u.tickIn b, rfl⟩
  | faulted c n =>
    rw [State.afterExecute_faulted hu, State.afterExecute_faulted (t := u.withSt b) hu]
    exact ⟨b, rfl⟩

/-! What a step answers where it runs no instruction; `step_of_nextInstr` is the case where it runs one. -/

theorem step_of_faulted {s : State} {c : FaultCause} {n : Nat} (hs : s.status = .faulted c n) :
    step s = .next s.quiescentStep := by
  rw [step, hs]

theorem step_of_fetchFault {s : State} (hs : s.status = .running) (hpc : 0xFFE < s.pc.toNat) :
    step s = .next (s.fetchFaultStep ⟨.fetchOutOfRange, s.pc.toNat⟩) := by
  rw [step, hs, fetch16, if_pos hpc]

theorem step_of_unrecognized {s : State} {w : Half} {e : Unrecognized} (hs : s.status = .running) (hw : NextWord s w)
    (he : decodeWord w = .error e) : step s = .next (s.beginStep.advance.report s.pc w).afterExecute := by
  obtain ⟨hpc, rfl⟩ := hw
  simp only [step, hs, fetch16, if_neg (Nat.not_lt.2 hpc), he]
  rfl

/-- Settles O51: the status check, the fetch and the decoding do not look at `ST`, and `exec_withSt` is the rest. -/
theorem soundTimerCannotBeObserved : Obligations.SoundTimerCannotBeObserved := by
  intro s t b h
  show ∃ b', step (s.withSt b) = .next (t.withSt b')
  obtain ⟨c, n, hf, e⟩ | ⟨hs, hpc, e⟩ | ⟨hs, w, err, hw, he, e⟩ | ⟨hs, i, hi, e⟩ := step_cases s <;> rw [e] at h
  · cases h
    exact ⟨b, step_of_faulted (s := s.withSt b) hf⟩
  · cases h
    exact ⟨b, step_of_fetchFault (s := s.withSt b) hs hpc⟩
  · cases h
    obtain ⟨b', hb⟩ := (s.beginStep.advance.report s.pc w).afterExecute_withSt b
    exact ⟨b', (step_of_unrecognized (s := s.withSt b) hs hw he).trans (congrArg _ hb)⟩
  · obtain ⟨u, hu, rfl⟩ := finishStep_eq_next.1 h
    obtain ⟨b₁, h₁⟩ := exec_withSt b hu
    obtain ⟨b₂, h₂⟩ := u.afterExecute_withSt b₁
    rw [step_of_nextInstr (s := s.withSt b) hs ((NextInstr.congr rfl rfl).2 hi)]
    exact ⟨b₂, finishStep_eq_next.2 ⟨_, h₁, h₂.symm⟩⟩

end Sys2Proof.Machine

/-! The rules of memory (20_memory.md): the canonical form is a faithful picture of the bytes, what a run of writes leaves
at each address, what a store through `I` does where it is legal and what it can change, and the ROM load. -/

namespace Sys2Proof.Machine

/-! ## The canonical form is faithful (20_memory.md R50, R55) -/

theorem Memory.risesFrom_cons (lo a : Nat) (v : Byte) (m : Memory) :
    Memory.risesFrom lo ((a, v) :: m) = true ↔ lo ≤ a ∧ Memory.risesFrom (a + 1) m = true := by
  simp only [Memory.risesFrom, Bool.and_eq_true, decide_eq_true_eq]

/-- A listed address is at least the bound the addresses rise from. -/
theorem Memory.le_of_lookup_eq_some {m : Memory} {lo a : Nat} {v : Byte} (hm : Memory.risesFrom lo m = true)
    (h : Memory.lookup m a = some v) : lo ≤ a := by
  induction m generalizing lo with
  | nil => cases h
  | cons c m ih =>
    obtain ⟨hlo, rises⟩ := (Memory.risesFrom_cons ..).1 hm
    simp only [Memory.lookup] at h
    split at h
    · omega
    · have := ih rises h
      omega

theorem Memory.lookup_eq_none_of_lt {m : Memory} {lo a : Nat} (hm : Memory.risesFrom lo m = true) (ha : a < lo) :
    Memory.lookup m a = none :=
  Option.eq_none_iff_forall_ne_some.2 fun _ h => Nat.not_le.2 ha (Memory.le_of_lookup_eq_some hm h)

/-- Two lists with rising addresses and the same entries are equal: the head of each is listed in the other, so the two
heads have one address. -/
theorem Memory.eq_of_lookup_eq {m m' : Memory} {lo lo' : Nat} (hm : Memory.risesFrom lo m = true)
    (hm' : Memory.risesFrom lo' m' = true) (h : ∀ a, Memory.lookup m a = Memory.lookup m' a) : m = m' := by
  induction m generalizing m' lo lo' with
  | nil =>
    cases m' with
    | nil => rfl
    | cons c' m' => simpa [Memory.lookup] using h c'.1
  | cons c m ih =>
    cases m' with
    | nil => simpa [Memory.lookup] using h c.1
    | cons c' m' =>
      obtain ⟨a, v⟩ := c
      obtain ⟨b, w⟩ := c'
      obtain ⟨-, rises⟩ := (Memory.risesFrom_cons ..).1 hm
      obtain ⟨-, rises'⟩ := (Memory.risesFrom_cons ..).1 hm'
      have head : Memory.lookup ((b, w) :: m') a = some v := (h a).symm.trans (if_pos rfl)
      have head' : Memory.lookup ((a, v) :: m) b = some w := (h b).trans (if_pos rfl)
      have hba : b ≤ a := Memory.le_of_lookup_eq_some ((Memory.risesFrom_cons ..).2 ⟨le_rfl, rises'⟩) head
      have hab : a ≤ b := Memory.le_of_lookup_eq_some ((Memory.risesFrom_cons ..).2 ⟨le_rfl, rises⟩) head'
      obtain rfl : a = b := Nat.le_antisymm hab hba
      obtain rfl : w = v := by simpa [Memory.lookup] using head
      congr 1
      refine ih rises rises' fun k => ?_
      by_cases hk : a = k
      · subst hk
        rw [Memory.lookup_eq_none_of_lt rises (Nat.lt_succ_self a),
          Memory.lookup_eq_none_of_lt rises' (Nat.lt_succ_self a)]
      · simpa [Memory.lookup, hk] using h k

theorem Memory.mem_of_lookup_eq_some {m : Memory} {a : Nat} {v : Byte} (h : Memory.lookup m a = some v) :
    (a, v) ∈ m := by
  induction m with
  | nil => cases h
  | cons c m ih =>
    simp only [Memory.lookup] at h
    split at h
    · rename_i hc
      cases h
      exact hc ▸ List.mem_cons_self
    · exact List.mem_cons_of_mem _ (ih h)

/-- In a canonical memory the listed addresses are those that do not read as an unlisted address does. -/
theorem Memory.lookup_eq_of_wf {m : Memory} (hm : Memory.wf m = true) (a : Nat) :
    Memory.lookup m a = if Memory.read m a = unlistedByte a then none else some (Memory.read m a) := by
  obtain ⟨-, entries⟩ := (Memory.wf_iff m).1 hm
  unfold Memory.read
  cases h : Memory.lookup m a with
  | none => exact (if_pos rfl).symm
  | some v =>
    obtain ⟨-, listed⟩ := entries _ (Memory.mem_of_lookup_eq_some h)
    exact (if_neg listed).symm

/-- Settles O3: reading gives the entries of a canonical memory back, and rising lists with the same entries are equal. -/
theorem canonicalMemoriesReadingAlikeAreEqual : Obligations.CanonicalMemoriesReadingAlikeAreEqual := by
  intro m m' hm hm' h
  obtain ⟨rises, -⟩ := (Memory.wf_iff m).1 hm
  obtain ⟨rises', -⟩ := (Memory.wf_iff m').1 hm'
  refine Memory.eq_of_lookup_eq rises rises' fun a => ?_
  rw [Memory.lookup_eq_of_wf hm, Memory.lookup_eq_of_wf hm', h]

/-! ## The access primitives and a run of writes (20_memory.md R60 to R63) -/

/-- Settles O2: each primitive's checks in the order of its rule, and `Memory.read_write` where a write is legal. -/
theorem accessPrimitivesReadWriteAndFault : Obligations.AccessPrimitivesReadWriteAndFault := by
  intro m a v
  refine ⟨rfl, fun high => if_pos high, fun font => ?_, fun low clear => ⟨Memory.write m a v, ?_, ?_, ?_⟩, rfl⟩
  · rw [memWrite, if_neg (by omega), if_pos ((inFontset_iff a).2 font)]
  · rw [memWrite, if_neg (by omega), if_neg (mt (inFontset_iff a).1 clear)]
  · rw [Memory.read_write, if_pos rfl]
  · intro b hb
    rw [Memory.read_write, if_neg hb]

/-- Byte `k` of a run of writes is read back at its address. -/
theorem Memory.read_writeAll_add (m : Memory) (a : Nat) {bs : List Byte} {k : Nat} (hk : k < bs.length) :
    Memory.read (Memory.writeAll m a bs) (a + k) = bs[k] := by
  rw [Memory.read_writeAll, dif_pos ⟨Nat.le_add_right a k, by omega⟩]
  simp only [Nat.add_sub_cancel_left]

/-- A run of writes leaves every address below and above it. -/
theorem Memory.read_writeAll_outside (m : Memory) {a b : Nat} {bs : List Byte} (hb : b < a ∨ a + bs.length ≤ b) :
    Memory.read (Memory.writeAll m a bs) b = Memory.read m b := by
  rw [Memory.read_writeAll, dif_neg (by omega)]

/-! ## Stores through `I` (42_index_memory.md R173, R174, R177) -/

/-- A store whose writes are all legal completes with its bytes written. -/
theorem State.storeThenIndex_of_canWrite {s : State} {bs : List Byte} (after : Half) (h : CanWrite s bs.length) :
    s.storeThenIndex bs after =
      .next ({ s.advance with mem := Memory.writeAll s.mem s.i.toNat bs }.writeI after) := by
  obtain ⟨-, e⟩ | ⟨a, bad, -⟩ := writeBytes_dataAddr_cases s bs
  · rw [State.storeThenIndex, e]
    rfl
  · exact (bad.not_canWrite h).elim

/-- Where FX55 is legal, the address of register `k` reads as `V[k]` after it. -/
theorem read_of_exec_stRegs {x k : Reg} {s t : State} (hw : CanWrite s (x.val + 1))
    (h : exec (.stRegs x) s = .next t) (hk : k ≤ x) : Memory.read t.mem (s.dataAddr k.val) = s.readV k := by
  have stored : exec (.stRegs x) s = _ :=
    State.storeThenIndex_of_canWrite (s.indexAfter x) (by rwa [State.length_firstRegs])
  obtain rfl := Host.Outcome.next.inj (stored.symm.trans h)
  have hlen : k.val < (s.firstRegs x).length := by
    rw [State.length_firstRegs]
    exact Nat.lt_succ_of_le hk
  exact (Memory.read_writeAll_add s.mem s.i.toNat hlen).trans (State.getElem_firstRegs s x k.val hlen)

/-- Settles O36: the two bytes of the fetched word are the two registers, and the second one's address is at most
0xFFF. -/
theorem storedRegistersAreFetchedNext : Obligations.StoredRegistersAreFetchedNext := by
  intro x k k' s t hw h hk' hx
  have hk : k ≤ x := Fin.le_def.2 (by have := Fin.le_def.1 hx; omega)
  have next : s.dataAddr k.val + 1 = s.dataAddr k'.val := by rw [hk']; rfl
  have legal : s.dataAddr k'.val ≤ 0xFFF := ((not_badWrite_iff _).1 (hw k'.val (Nat.lt_succ_of_le hx))).1
  rw [fetch16, if_neg (by omega), next, read_of_exec_stRegs hw h hk, read_of_exec_stRegs hw h hx]
  rfl

/-- A store changes only bytes it wrote, and each of its writes was legal. -/
theorem State.storeThenIndex_read_ne {s u : State} {bs : List Byte} {after : Half} {a : Nat}
    (h : s.storeThenIndex bs after = .next u) (ha : Memory.read u.mem a ≠ Memory.read s.mem a) :
    ∃ k, k < bs.length ∧ a = s.dataAddr k ∧ ¬ BadWrite a := by
  obtain ⟨m, hm, rfl⟩ | ⟨r, rfl⟩ := State.storeThenIndex_next h
  · obtain ⟨legal, e⟩ | ⟨n, -, ⟨-, e⟩ | ⟨-, -, e⟩⟩ := writeBytes_dataAddr_cases s bs <;>
      cases hm.symm.trans e
    have inside : ¬ (a < s.dataAddr 0 ∨ s.dataAddr 0 + bs.length ≤ a) := mt (Memory.read_writeAll_outside s.mem) ha
    simp only [State.dataAddr] at inside
    have hk : a - s.i.toNat < bs.length := by omega
    have addr : a = s.dataAddr (a - s.i.toNat) := by simp only [State.dataAddr]; omega
    exact ⟨_, hk, addr, addr ▸ legal _ hk⟩
  · exact absurd rfl ha

/-- An instruction changes only bytes among those R59's table says it writes, and each of its writes was legal. -/
theorem exec_read_ne {i : Instr} {s u : State} {a : Nat} (h : exec i s = .next u)
    (ha : Memory.read u.mem a ≠ Memory.read s.mem a) : ∃ k, k < dataWrites i ∧ a = s.dataAddr k ∧ ¬ BadWrite a := by
  cases i with
  | ldB x => exact State.storeThenIndex_read_ne h ha
  | stRegs x =>
    obtain ⟨k, hk, legal⟩ := State.storeThenIndex_read_ne h ha
    exact ⟨k, hk.trans_eq (s.length_firstRegs x), legal⟩
  | _ => exact absurd ((exec_frame h).mem (by simp [mayChange, stepParts]) a) ha

/-- Settles O37: a step that runs no instruction keeps memory, and otherwise `exec_read_ne` holds of its instruction. -/
theorem stepsChangeMemoryOnlyByStores : Obligations.StepsChangeMemoryOnlyByStores := by
  intro s t a h ha
  obtain f | ⟨i, u, hi, hu, f⟩ := step_exec_cases h
  · exact absurd (f.mem (by simp [stepParts]) a) ha
  · rw [f.mem (by simp)] at ha
    obtain ⟨k, hk, addr, legal⟩ := exec_read_ne hu ha
    obtain ⟨hmax, clear⟩ := not_or.1 legal
    exact ⟨i, hi, ⟨k, hk, addr⟩, Nat.not_lt.1 hmax, clear⟩

/-! ## The fetch fault (20_memory.md R62, 60_exceptions.md R231) -/

theorem State.fetchFaultStep_frame (s : State) (r : Raised) :
    OnlyChanges noReg [.status, .event, .supply] s (s.fetchFaultStep r) := by
  have begun : OnlyChanges noReg [.status, .event, .supply] s s.beginStep := s.beginStep_frame.within (by simp)
  have faulted := begun.trans ((s.beginStep.takeFault_frame r).within (by simp))
  exact faulted.trans ((State.consumeInput_frame _).within (by simp))

/-- Settles O12: the step is `fetchFaultStep`, with its frame. -/
theorem fetchAboveTheLastPairFaults : Obligations.FetchAboveTheLastPairFaults := fun s hs hpc =>
  ⟨_, step_of_fetchFault hs hpc, rfl, rfl, s.fetchFaultStep_frame _⟩

/-! ## Reset and the ROM load (20_memory.md R55, R56, R69) -/

/-- Settles O57: the default `FONT` lists nothing in memory. -/
theorem resetStateIsThatOfTheDefaultFont : Obligations.ResetStateIsThatOfTheDefaultFont := by
  rw [Obligations.ResetStateIsThatOfTheDefaultFont, State.resetWith, resetMemory_defaultFont]
  rfl

theorem State.loadRom_of_tooLarge (s : State) {bytes : List Byte} (h : 3584 < bytes.length) :
    s.loadRom bytes = (.romTooLarge, s) := if_pos h

theorem State.loadRom_of_fits (s : State) {bytes : List Byte} (h : bytes.length ≤ 3584) :
    s.loadRom bytes = (.loadOk, { s with mem := Memory.writeAll s.mem 0x200 bytes }) := if_neg (Nat.not_lt.2 h)

theorem State.mem_frame (s : State) (m : Memory) : OnlyChanges noReg [.mem] s { s with mem := m } := by
  apply OnlyChanges.of_fields <;> simp [State.readV]

/-- Settles O53: a ROM that fits is one run of writes at 0x200, which is read back and leaves every other address. -/
theorem loadRomStoresAllOrNothing : Obligations.LoadRomStoresAllOrNothing := by
  intro s bytes
  refine ⟨s.loadRom_of_tooLarge, fun fits => ?_⟩
  rw [s.loadRom_of_fits fits]
  refine ⟨rfl, fun k b hb => ?_, fun a ha => Memory.read_writeAll_outside s.mem ha, s.mem_frame _⟩
  obtain ⟨hk, rfl⟩ := List.getElem?_eq_some_iff.1 hb
  exact Memory.read_writeAll_add s.mem 0x200 hk

end Sys2Proof.Machine

/-! The encoding (30_encoding.md): the decoder and the encoder undo each other, the number of a pattern is the word of its
row, which words are unrecognized, and what a step does with the word it fetched. -/

namespace Sys2Proof

/-! ## Decoding what the encoder wrote (R84, R85) -/

/-- The two class-0 words that are no SYS have the NNN that a well-formed SYS may not have. -/
theorem encode_sys_ne {nnn : Addr12} (h : (Instr.sys nnn).wellFormed = true) :
    0x0#4 ++ nnn ≠ 0x00E0#16 ∧ 0x0#4 ++ nnn ≠ 0x00EE#16 := by
  simp only [Instr.wellFormed, Bool.and_eq_true, bne_iff_ne] at h
  obtain ⟨not_cls, not_ret⟩ := h
  exact ⟨fun e => not_cls ((fieldNNN_addr 0x0#4 nnn).symm.trans (congrArg fieldNNN e)),
    fun e => not_ret ((fieldNNN_addr 0x0#4 nnn).symm.trans (congrArg fieldNNN e))⟩

theorem decodeWord_encode {i : Instr} (h : i.wellFormed = true) : decodeWord (encode i) = .ok i := by
  cases i with
  | cls | ret => rfl
  | sys nnn =>
    obtain ⟨not_cls, not_ret⟩ := encode_sys_ne h
    simp [decodeWord, encode, not_cls, not_ret]
  | jp | call | ldI | jpV0 | seImm | sneImm | ldImm | addImm | rnd | seReg | sneReg | drw =>
    simp [decodeWord, encode]
  | ldReg | orReg | andReg | xorReg | addReg | subReg | shr | subnReg | shl =>
    simp [decodeWord, decodeClass8, encode]
  | skp | sknp => simp [decodeWord, decodeClassE, encode]
  | ldFromDt | ldKey | ldToDt | ldToSt | addI | ldF | ldB | stRegs | ldRegs =>
    simp [decodeWord, decodeClassF, encode]

theorem decode_encodeBytes {i : Instr} (rest : List Byte) (h : i.wellFormed = true) :
    decode (encodeBytes i ++ rest) = .ok (i, rest) := by
  simp only [encodeBytes, List.cons_append, List.nil_append, decode, wordOfBytes_high_low, decodeWord_encode h]

/-- Settles O4: each row's fields are read back from its word, and its two bytes make up the word. -/
theorem decodeOfEncodeIsTheInstruction : Obligations.DecodeOfEncodeIsTheInstruction := fun _ rest h =>
  ⟨decodeWord_encode h, decode_encodeBytes rest h⟩

/-! ## Encoding what the decoder read (R86) -/

/-! A word whose class is known, put together again from its other fields. -/

theorem addr_of_class {w : Half} {c : Nibble} (h : (wordClass w).toNat = c.toNat) : c ++ fieldNNN w = w :=
  BitVec.eq_of_toNat_eq h ▸ addr_of_fields w

theorem regImm_of_class {w : Half} {c : Nibble} (h : (wordClass w).toNat = c.toNat) :
    c ++ regBits (fieldX w) ++ fieldKK w = w :=
  BitVec.eq_of_toNat_eq h ▸ regImm_of_fields w

theorem regRegN_of_class {w : Half} {c n : Nibble} (h : (wordClass w).toNat = c.toNat) (hn : fieldN w = n) :
    c ++ regBits (fieldX w) ++ regBits (fieldY w) ++ n = w :=
  BitVec.eq_of_toNat_eq h ▸ hn ▸ regRegN_of_fields w

theorem encode_of_decodeClass8 {x y : Reg} {n : Nibble} {i : Instr} (h : decodeClass8 x y n = .ok i) :
    i.wellFormed = true ∧ encode i = 0x8#4 ++ regBits x ++ regBits y ++ n := by
  have row : ∀ {c : Nibble}, n.toNat = c.toNat →
      0x8#4 ++ regBits x ++ regBits y ++ c = 0x8#4 ++ regBits x ++ regBits y ++ n :=
    fun hn => congrArg _ (BitVec.eq_of_toNat_eq hn.symm)
  unfold decodeClass8 at h
  split at h <;> cases h <;> exact ⟨rfl, row ‹_›⟩

theorem encode_of_decodeClassE {x : Reg} {kk : Byte} {i : Instr} (h : decodeClassE x kk = .ok i) :
    i.wellFormed = true ∧ encode i = 0xE#4 ++ regBits x ++ kk := by
  simp only [decodeClassE] at h
  split_ifs at h <;> cases h <;> subst kk <;> exact ⟨rfl, rfl⟩

theorem encode_of_decodeClassF {x : Reg} {kk : Byte} {i : Instr} (h : decodeClassF x kk = .ok i) :
    i.wellFormed = true ∧ encode i = 0xF#4 ++ regBits x ++ kk := by
  simp only [decodeClassF] at h
  split_ifs at h <;> cases h <;> subst kk <;> exact ⟨rfl, rfl⟩

/-- The class that `decodeWord` reaches last. -/
theorem wordClass_eq_F {w : Half} (h : 0xE < (wordClass w).toNat) : (wordClass w).toNat = 0xF := by
  have := (wordClass w).isLt
  omega

/-- Settles O5: each branch of the decoder keeps every field of the word, or checks the bits it does not keep. -/
theorem decodedInstructionEncodesToItsWord : Obligations.DecodedInstructionEncodesToItsWord := by
  intro w i h
  unfold decodeWord at h
  split at h <;> rename_i hc
  case h_1 =>
    have word : 0x0#4 ++ fieldNNN w = w := addr_of_class hc
    split_ifs at h with hcls hret <;> cases h
    · exact ⟨rfl, hcls.symm⟩
    · exact ⟨rfl, hret.symm⟩
    · refine ⟨?_, word⟩
      simp only [Instr.wellFormed, Bool.and_eq_true, bne_iff_ne]
      exact ⟨fun e => hcls (word.symm.trans (by rw [e]; rfl)), fun e => hret (word.symm.trans (by rw [e]; rfl))⟩
  case h_2 | h_3 | h_11 | h_12 => cases h; exact ⟨rfl, addr_of_class hc⟩
  case h_4 | h_5 | h_7 | h_8 | h_13 => cases h; exact ⟨rfl, regImm_of_class hc⟩
  case h_6 | h_10 =>
    split_ifs at h with hn
    cases h
    exact ⟨rfl, regRegN_of_class hc hn⟩
  case h_9 =>
    obtain ⟨wf, e⟩ := encode_of_decodeClass8 h
    exact ⟨wf, e.trans (regRegN_of_class hc rfl)⟩
  case h_14 => cases h; exact ⟨rfl, regRegN_of_class hc rfl⟩
  case h_15 =>
    obtain ⟨wf, e⟩ := encode_of_decodeClassE h
    exact ⟨wf, e.trans (regImm_of_class hc)⟩
  case h_16 =>
    obtain ⟨wf, e⟩ := encode_of_decodeClassF h
    refine ⟨wf, e.trans (regImm_of_class (wordClass_eq_F ?_))⟩
    simp only [imp_false] at *
    omega

/-! ## Words as numbers (R80, R84) -/

theorem toNat_append_eq {m n : Nat} (a : BitVec m) (b : BitVec n) :
    (a ++ b).toNat = a.toNat * 2 ^ n + b.toNat := by
  rw [BitVec.toNat_append, ← Nat.shiftLeft_add_eq_or_of_lt b.isLt, Nat.shiftLeft_eq]

theorem toNat_regBits (r : Reg) : (regBits r).toNat = r.val := rfl

/-- A number that is the word of a well-formed instruction decodes to it. -/
theorem decodeWord_ofNat {i : Instr} {k : Nat} (h : i.wellFormed = true) (hk : (encode i).toNat = k) :
    decodeWord (BitVec.ofNat 16 k) = .ok i := by
  rw [← hk, BitVec.ofNat_toNat, BitVec.setWidth_eq, decodeWord_encode h]

/-- Settles O56: the number of each pattern is the encoder's word, which decodes to its instruction. -/
theorem everyRowDecodesByItsPattern : Obligations.EveryRowDecodesByItsPattern := by
  intro x y kk nnn n
  refine ⟨rfl, rfl, fun not_cls not_ret => decodeWord_ofNat ?_ ?_, ?_⟩
  · simp [Instr.wellFormed, not_cls, not_ret]
  · simp only [encode, toNat_append_eq, BitVec.toNat_ofNat]
    omega
  · and_intros
    all_goals
      refine decodeWord_ofNat rfl ?_
      simp only [encode, toNat_append_eq, toNat_regBits, BitVec.toNat_ofNat]
      omega

/-- Settles O6: the decoder computes on each of the words. -/
theorem writtenWordsDecodeByThePatterns : Obligations.WrittenWordsDecodeByThePatterns := by
  unfold Obligations.WrittenWordsDecodeByThePatterns
  and_intros <;> rfl

/-! ## The unrecognized words (R87) -/

theorem toNat_wordClass (w : Half) : (wordClass w).toNat = w.toNat / 0x1000 := by
  simp only [wordClass, BitVec.extractLsb'_toNat, Nat.shiftRight_eq_div_pow]
  omega

theorem toNat_fieldN (w : Half) : (fieldN w).toNat = w.toNat % 0x10 := by
  simp [fieldN, BitVec.extractLsb'_toNat]

theorem toNat_fieldKK (w : Half) : (fieldKK w).toNat = w.toNat % 0x100 := by
  simp [fieldKK, BitVec.extractLsb'_toNat]

theorem decodeClass8_eq_error_iff {x y : Reg} {n : Nibble} :
    (∃ u, decodeClass8 x y n = .error u) ↔ n.toNat ∈ [0x8, 0x9, 0xA, 0xB, 0xC, 0xD, 0xF] := by
  unfold decodeClass8
  split
  case h_10 =>
    refine iff_of_true ⟨_, rfl⟩ ?_
    have := n.isLt
    simp only [imp_false, List.mem_cons, List.not_mem_nil, or_false] at *
    omega
  all_goals simp [*]

theorem decodeClassE_eq_error_iff {x : Reg} {kk : Byte} :
    (∃ u, decodeClassE x kk = .error u) ↔ kk.toNat ∉ [0x9E, 0xA1] := by
  simp only [decodeClassE, BitVec.toNat_eq, BitVec.toNat_ofNat, Nat.reducePow, Nat.reduceMod]
  split_ifs <;> simp [*]

theorem decodeClassF_eq_error_iff {x : Reg} {kk : Byte} :
    (∃ u, decodeClassF x kk = .error u) ↔
      kk.toNat ∉ [0x07, 0x0A, 0x15, 0x18, 0x1E, 0x29, 0x33, 0x55, 0x65] := by
  simp only [decodeClassF, BitVec.toNat_eq, BitVec.toNat_ofNat, Nat.reducePow, Nat.reduceMod]
  split_ifs <;> simp [*]

/-- R87's list: classes 5 and 9 check N, classes 8, E and F have sub-opcodes, and no other class rejects a word. -/
theorem decodeWord_eq_error_iff {w : Half} : (∃ u, decodeWord w = .error u) ↔
    ((wordClass w).toNat = 0x5 ∧ (fieldN w).toNat ≠ 0) ∨
    ((wordClass w).toNat = 0x8 ∧ (fieldN w).toNat ∈ [0x8, 0x9, 0xA, 0xB, 0xC, 0xD, 0xF]) ∨
    ((wordClass w).toNat = 0x9 ∧ (fieldN w).toNat ≠ 0) ∨
    ((wordClass w).toNat = 0xE ∧ (fieldKK w).toNat ∉ [0x9E, 0xA1]) ∨
    ((wordClass w).toNat = 0xF ∧
      (fieldKK w).toNat ∉ [0x07, 0x0A, 0x15, 0x18, 0x1E, 0x29, 0x33, 0x55, 0x65]) := by
  unfold decodeWord
  split <;> rename_i hc
  case h_1 => split_ifs <;> simp [hc]
  case h_6 | h_10 =>
    simp only [BitVec.toNat_eq]
    split_ifs with hn <;> simpa [hc] using hn
  case h_9 => simp [hc, decodeClass8_eq_error_iff]
  case h_15 => simp [hc, decodeClassE_eq_error_iff]
  case h_16 =>
    have class_F : (wordClass w).toNat = 0xF := wordClass_eq_F (by simp only [imp_false] at *; omega)
    simp [class_F, decodeClassF_eq_error_iff]
  all_goals simp [hc]

end Sys2Proof

namespace Sys2Proof.Machine

/-- Settles O7: the list is that of `decodeWord_eq_error_iff`, and the step is the report and the tick. -/
theorem unrecognizedWordsAreReportedAndIgnored : Obligations.UnrecognizedWordsAreReportedAndIgnored := by
  constructor
  · intro w
    rw [decodeWord_eq_error_iff, toNat_wordClass, toNat_fieldN, toNat_fieldKK]
  · intro s w u hs hw hu
    have ended : (s.beginStep.advance.report s.pc w).afterExecute =
        ((s.beginStep.advance.report s.pc w).timerTick s.tickIn).consumeInput := State.afterExecute_running hs
    refine ⟨_, (step_of_unrecognized hs hw hu).trans (congrArg _ ended), rfl, rfl,
      countDown_toNat s.tickIn s.dt, countDown_toNat s.tickIn s.st, ?_⟩
    apply OnlyChanges.of_fields <;> simp [State.readV]

/-! ## The step (R100) -/

theorem step_of_exec_next {s u : State} {i : Instr} (hs : s.status = .running) (hi : NextInstr s i)
    (hu : exec i s.beginStep = .next u) : step s = .next u.afterExecute :=
  (step_of_nextInstr hs hi).trans (congrArg finishStep hu)

/-- Every instruction has a meaning (log 5: the one stop is a fault). -/
theorem exec_ne_refused (i : Instr) (s : State) (r : Refusal) : exec i s ≠ .refused r := by
  cases i with
  | call nnn =>
    simp only [exec, execCall]
    split
    · nofun
    · split <;> nofun
  | ret =>
    simp only [exec, execRet]
    split
    · nofun
    · split <;> nofun
  | ldKey x =>
    simp only [exec, execLdKey]
    split <;> nofun
  | drw | ldB | stRegs | ldRegs =>
    obtain ⟨u, hu⟩ := s.completeOrFault_answers_next _
    exact fun h => nomatch hu.symm.trans h
  | _ => nofun

/-- Settles O8: the step is `finishStep` of what `exec` answered, and `afterExecute` ticks where it completed. -/
theorem stepRunsTheDecodedInstruction : Obligations.StepRunsTheDecodedInstruction := by
  intro s i hs hi
  refine ⟨fun u hu running => ?_, fun u c n hu faulted => ?_, fun f hf => ?_, exec_ne_refused i _⟩
  · have ended : u.afterExecute = (u.timerTick u.tickIn).consumeInput := State.afterExecute_running running
    exact ⟨_, (step_of_exec_next hs hi hu).trans (congrArg _ ended), countDown_toNat .., countDown_toNat ..,
      rfl, rfl, ended ▸ u.afterExecute_frame⟩
  · have ended : u.afterExecute = u.consumeInput := State.afterExecute_faulted faulted
    exact ⟨_, (step_of_exec_next hs hi hu).trans (congrArg _ ended), rfl, rfl, u.consumeInput_frame⟩
  · exact (step_of_nextInstr hs hi).trans (congrArg finishStep hf)

/-! ## The random byte (R101) -/

/-- The state with one more input laid out, to be used first. -/
def State.withInput (s : State) (inp : StepInput) : State := { s with inputs := inp :: s.inputs }

@[simp] theorem State.withInput_mem (s : State) (inp : StepInput) : (s.withInput inp).mem = s.mem := rfl
@[simp] theorem State.withInput_dataAddr (s : State) (inp : StepInput) (k : Nat) :
    (s.withInput inp).dataAddr k = s.dataAddr k := rfl
@[simp] theorem State.withInput_lowestKey (s : State) (inp : StepInput) :
    (s.withInput inp).lowestKey = s.lowestKey := rfl

/-- An outcome with its next state, if it is one, changed by `f`. -/
def mapNext (f : State → State) : Outcome → Outcome
  | .next u => .next (f u)
  | .fault e => .fault e
  | .refused r => .refused r

theorem State.completeOrFault_withInput {s : State} {inp : StepInput} {made made' : Except Raised State}
    (h : made' = made.map (·.withInput inp)) :
    (s.withInput inp).completeOrFault made' = mapNext (·.withInput inp) (s.completeOrFault made) := by
  subst h
  cases made <;> rfl

theorem State.storeThenIndex_withInput (s : State) (inp : StepInput) (bs : List Byte) (after : Half) :
    (s.withInput inp).storeThenIndex bs after = mapNext (·.withInput inp) (s.storeThenIndex bs after) := by
  refine State.completeOrFault_withInput ?_
  rw [State.withInput_mem, State.withInput_dataAddr]
  cases writeBytes s.mem (s.dataAddr 0) bs <;> rfl

theorem State.skipIf_withInput (s : State) (inp : StepInput) (taken : Bool) :
    (s.withInput inp).skipIf taken = (s.skipIf taken).withInput inp := by
  cases taken <;> rfl

/-- No instruction but RND looks at the input laid out. -/
theorem exec_withInput {i : Instr} (s : State) (inp : StepInput) (h : ∀ x kk, i ≠ .rnd x kk) :
    exec i (s.withInput inp) = mapNext (·.withInput inp) (exec i s) := by
  cases i with
  | rnd x kk => exact absurd rfl (h x kk)
  | seImm | sneImm | seReg | sneReg | skp | sknp =>
    exact congrArg Host.Outcome.next (s.advance.skipIf_withInput inp _)
  | call nnn =>
    simp only [exec, execCall, apply_dite (mapNext _), apply_ite (mapNext _)]
    rfl
  | ret =>
    simp only [exec, execRet, apply_dite (mapNext _), apply_ite (mapNext _)]
    rfl
  | ldKey x =>
    simp only [exec, execLdKey, State.withInput_lowestKey]
    split <;> rfl
  | drw x y n =>
    refine State.completeOrFault_withInput ?_
    rw [State.withInput_mem, State.withInput_dataAddr]
    cases readBytes s.mem (s.dataAddr 0) n.toNat <;> rfl
  | ldRegs x =>
    refine State.completeOrFault_withInput ?_
    rw [State.withInput_mem, State.withInput_dataAddr]
    cases readBytes s.mem (s.dataAddr 0) (regCount x) <;> rfl
  | ldB | stRegs => exact s.storeThenIndex_withInput inp _ _
  | _ => rfl

/-- The end of a step looks at the tick of the input it uses up, and not at the random byte. -/
theorem State.afterExecute_withInput (u : State) (tick : Bool) (r r' : Byte) :
    (u.withInput ⟨tick, r⟩).afterExecute = (u.withInput ⟨tick, r'⟩).afterExecute := by
  unfold State.afterExecute State.withInput
  cases u.status <;> rfl

theorem finishStep_withInput (o : Outcome) (tick : Bool) (r r' : Byte) :
    finishStep (mapNext (·.withInput ⟨tick, r⟩) o) = finishStep (mapNext (·.withInput ⟨tick, r'⟩) o) := by
  cases o with
  | next u => exact congrArg Host.Outcome.next (u.afterExecute_withInput tick r r')
  | fault | refused => rfl

theorem step_withInput_of_nextInstr {s : State} {i : Instr} (inp : StepInput) (hs : s.status = .running)
    (hi : NextInstr s i) (h : ∀ x kk, i ≠ .rnd x kk) :
    step (s.withInput inp) = finishStep (mapNext (·.withInput inp) (exec i s.beginStep)) :=
  (step_of_nextInstr (s := s.withInput inp) hs ((NextInstr.congr rfl rfl).2 hi)).trans
    (congrArg finishStep (exec_withInput s.beginStep inp h))

/-- Settles O52: only the instruction could look at the random byte, and `exec_withInput` says that it does not. -/
theorem randomByteIsReadOnlyByRnd : Obligations.RandomByteIsReadOnlyByRnd := by
  intro s t tick r r' hrnd h
  suffices same : step (s.withInput ⟨tick, r'⟩) = step (s.withInput ⟨tick, r⟩) from same.trans h
  obtain ⟨c, n, hf, -⟩ | ⟨hs, hpc, -⟩ | ⟨hs, w, u, hw, hu, -⟩ | ⟨hs, i, hi, -⟩ := step_cases s
  · rw [step_of_faulted (s := s.withInput ⟨tick, r⟩) hf, step_of_faulted (s := s.withInput ⟨tick, r'⟩) hf]
    rfl
  · rw [step_of_fetchFault (s := s.withInput ⟨tick, r⟩) hs hpc,
      step_of_fetchFault (s := s.withInput ⟨tick, r'⟩) hs hpc]
    rfl
  · rw [step_of_unrecognized (s := s.withInput ⟨tick, r⟩) hs hw hu,
      step_of_unrecognized (s := s.withInput ⟨tick, r'⟩) hs hw hu]
    exact congrArg Host.Outcome.next ((s.beginStep.advance.report s.pc w).afterExecute_withInput tick r' r)
  · have not_rnd : ∀ x kk, i ≠ .rnd x kk := fun x kk e => hrnd x kk (e ▸ hi)
    rw [step_withInput_of_nextInstr _ hs hi not_rnd, step_withInput_of_nextInstr _ hs hi not_rnd]
    exact finishStep_withInput _ tick r' r

end Sys2Proof.Machine

/-! The rules of control flow (40_control_flow.md): where a jump, a call, a return and a skip leave the pc, the stack
pointer and the stack. -/

namespace Sys2Proof.Machine

/-! ## Operands (30_encoding.md R81) -/

theorem toNat_addrOperand (nnn : Addr12) : (addrOperand nnn).toNat = nnn.toNat :=
  BitVec.toNat_setWidth_of_le (by decide)

theorem toNat_widen (b : Byte) : (widen b).toNat = b.toNat := BitVec.toNat_setWidth_of_le (by decide)

theorem val_offsetReg (nnn : Addr12) : (offsetReg nnn).val = nnn.toNat / 0x100 := by
  have := nnn.isLt
  show (nnn.extractLsb' 8 4).toNat = _
  rw [BitVec.extractLsb'_toNat, Nat.shiftRight_eq_div_pow]
  omega

/-- The target of JP V0 does not wrap: the two operands add to at most 0x10FE (R129). -/
theorem toNat_addrOperand_add_widen (nnn : Addr12) (b : Byte) :
    (addrOperand nnn + widen b).toNat = nnn.toNat + b.toNat := by
  have := nnn.isLt
  have := b.isLt
  rw [BitVec.toNat_add, toNat_addrOperand, toNat_widen]
  omega

/-! ## SYS and the jumps (R120, R121, R129) -/

/-- Settles O19: the report follows the advance, and the event and the pc are all that the two write. -/
theorem sysReportsAndAdvances : Obligations.SysReportsAndAdvances := fun nnn s =>
  ⟨s.advance.report s.pc (sysWord nnn), rfl, rfl, rfl,
    (s.advance_frame.within (by simp)).trans ((s.advance.report_frame ..).within (by simp))⟩

theorem State.advance_writePc_frame (s : State) (w : Half) : OnlyChanges noReg [.pc] s (s.advance.writePc w) :=
  s.advance_frame.trans (s.advance.writePc_frame w)

/-- Settles O20: the zero-extended operand is written over the advanced pc. -/
theorem jpSetsThePcToTheAddress : Obligations.JpSetsThePcToTheAddress := fun nnn s =>
  ⟨s.advance.writePc (addrOperand nnn), rfl, toNat_addrOperand nnn, s.advance_writePc_frame _⟩

/-- Settles O24: the register is that of the high nibble, and the 16-bit sum is the exact one. -/
theorem jpV0AddsTheRegisterOfTheHighNibble : Obligations.JpV0AddsTheRegisterOfTheHighNibble := by
  intro nnn x s hx
  obtain rfl : offsetReg nnn = x := Fin.ext ((val_offsetReg nnn).trans hx.symm)
  exact ⟨s.advance.writePc (addrOperand nnn + widen (s.readV (offsetReg nnn))), rfl,
    toNat_addrOperand_add_widen .., s.advance_writePc_frame _⟩

/-! ## CALL and RET (R122, R124) -/

theorem exec_call_of_lt (nnn : Addr12) {s : State} (h : s.sp.toNat < 16) :
    exec (.call nnn) s = .next ((s.advance.push ⟨s.sp.toNat, h⟩).writePc (addrOperand nnn)) := dif_pos h

theorem exec_call_of_full (nnn : Addr12) {s : State} (h : s.sp.toNat = 16) :
    exec (.call nnn) s = .next (s.takeFault ⟨.stackOverflow, 16⟩) := by
  show execCall nnn s = _
  rw [execCall, dif_neg (by omega), if_pos h, h]

theorem exec_ret_of_empty {s : State} (h : s.sp.toNat = 0) :
    exec .ret s = .next (s.takeFault ⟨.stackUnderflow, 0⟩) := by
  show execRet s = _
  rw [execRet, if_pos h, h]

theorem exec_ret_of_succ {s : State} {j : Fin 16} (h : s.sp.toNat = j.val + 1) :
    exec .ret s = .next (s.advance.pop j) := by
  show execRet s = _
  have top : s.sp.toNat - 1 = j.val := by omega
  have inside : s.sp.toNat - 1 < 16 := top ▸ j.isLt
  have entry : (⟨s.sp.toNat - 1, inside⟩ : Fin 16) = j := Fin.ext top
  rw [execRet, if_neg (by omega), dif_pos inside, entry]

/-- Settles O21: the pushed entry is the advanced pc, and on a full stack the fault is taken before any change. -/
theorem callPushesTheReturnAddress : Obligations.CallPushesTheReturnAddress := by
  intro nnn s
  constructor
  · intro h
    have entries : ∀ j : Fin 16, (s.advance.push ⟨s.sp.toNat, h⟩).readStack j =
        if j.val = s.sp.toNat then s.pc + 2#16 else s.readStack j := fun j =>
      (s.advance.readStack_push ..).trans (if_congr Fin.ext_iff rfl rfl)
    have deeper : (s.advance.push ⟨s.sp.toNat, h⟩).sp.toNat = s.sp.toNat + 1 := State.toNat_sp_push rfl
    have pushed : OnlyChanges noReg [.pc, .sp, .stack] s (s.advance.push ⟨s.sp.toNat, h⟩) :=
      (s.advance_frame.within (by simp)).trans ((s.advance.push_frame _).within (by simp))
    exact ⟨_, exec_call_of_lt nnn h, entries, deeper, toNat_addrOperand nnn,
      pushed.trans ((State.writePc_frame ..).within (by simp))⟩
  · intro h
    rw [exec_call_of_full nnn h]
    exact s.takeFault_entersFault _

/-- Settles O22: the entry below `SP` is popped, and on an empty stack the fault is taken before any change. -/
theorem retPopsTheReturnAddress : Obligations.RetPopsTheReturnAddress := by
  intro s
  constructor
  · intro j h
    exact ⟨_, exec_ret_of_succ h, State.toNat_sp_pop (s := s.advance) h, rfl,
      (s.advance_frame.within (by simp)).trans (s.advance.pop_frame j)⟩
  · intro h
    rw [exec_ret_of_empty h]
    exact s.takeFault_entersFault _

/-! ## The skips (R125 to R128, R131) -/

theorem State.advance_skipIf_frame (s : State) (taken : Bool) : OnlyChanges noReg [.pc] s (s.advance.skipIf taken) :=
  s.advance_frame.trans (s.advance.skipIf_frame taken)

/-- A skip adds 2 to the pc, and 2 more where it is taken. -/
theorem State.advance_skipIf_pc (s : State) {taken : Bool} {p : Prop} [Decidable p] (h : taken = true ↔ p) :
    (s.advance.skipIf taken).pc = if p then s.pc + 4#16 else s.pc + 2#16 := by
  have two_and_two : s.pc + 2#16 + 2#16 = s.pc + 4#16 := BitVec.add_assoc ..
  simp only [State.skipIf_pc, State.advance_pc, h, two_and_two]

/-- Settles O23: the four comparisons are Boolean (in)equalities of bytes. -/
theorem compareSkipsAddTwoWhenTaken : Obligations.CompareSkipsAddTwoWhenTaken := fun _ _ _ s =>
  ⟨⟨_, rfl, s.advance_skipIf_pc beq_iff_eq, s.advance_skipIf_frame _⟩,
    ⟨_, rfl, s.advance_skipIf_pc bne_iff_ne, s.advance_skipIf_frame _⟩,
    ⟨_, rfl, s.advance_skipIf_pc beq_iff_eq, s.advance_skipIf_frame _⟩,
    ⟨_, rfl, s.advance_skipIf_pc bne_iff_ne, s.advance_skipIf_frame _⟩⟩

end Sys2Proof.Machine

/-! The rules of the register loads, the ALU and RND (41_register_alu.md): the value each result and each flag has, and
what an instruction that writes one register, or a result and then VF, leaves behind. -/

namespace Sys2Proof.Machine

/-! ## Results and flags as numbers (R160, R161) -/

theorem toNat_addResult (a b : Byte) : (addResult a b).toNat = (a.toNat + b.toNat) % 256 := BitVec.toNat_ofNat ..

theorem toNat_subResult (a b : Byte) : (subResult a b).toNat = (a.toNat + 256 - b.toNat) % 256 :=
  BitVec.toNat_ofNat ..

theorem toNat_shrResult (a : Byte) : (shrResult a).toNat = a.toNat / 2 := BitVec.toNat_ushiftRight ..

theorem toNat_shlResult (a : Byte) : (shlResult a).toNat = a.toNat * 2 % 256 := by
  rw [shlResult, BitVec.toNat_shiftLeft, Nat.shiftLeft_eq]

theorem flagByte_decide (p : Prop) [Decidable p] : flagByte (decide p) = if p then 1#8 else 0#8 :=
  if_congr decide_eq_true_iff rfl rfl

theorem toNat_flagByte (c : Bool) : (flagByte c).toNat = c.toNat := by cases c <;> rfl

theorem toNat_lowBitFlag (a : Byte) : (lowBitFlag a).toNat = a.toNat % 2 := by
  rw [lowBitFlag, toNat_flagByte, BitVec.getLsbD, Nat.toNat_testBit, Nat.pow_zero, Nat.div_one]

/-- Bit 7 is the top bit of a byte, so no bit above it is left to be masked. -/
theorem toNat_highBitFlag (a : Byte) : (highBitFlag a).toNat = a.toNat / 128 := by
  have := a.isLt
  rw [highBitFlag, toNat_flagByte, BitVec.getLsbD, Nat.toNat_testBit]
  omega

/-! ## Advancing and writing one register -/

theorem State.readV_writeV_same (s : State) (x : Reg) (b : Byte) : (s.writeV x b).readV x = b :=
  (s.readV_writeV x x b).trans (if_pos rfl)

theorem State.advance_writeV_frame (s : State) (x : Reg) (b : Byte) :
    OnlyChanges (· = x) [.pc] s (s.advance.writeV x b) :=
  (s.advance_frame.within (by simp)).trans ((s.advance.writeV_frame x b).mono (fun _ w => w) (by simp))

theorem State.rndIn_of_inputs_eq_cons {s : State} {inp : StepInput} {rest : List StepInput}
    (h : s.inputs = inp :: rest) : s.rndIn = inp.rnd := by
  rw [State.rndIn, State.input, h]

/-- Settles O25: each load is one register write of its source over the advanced state. -/
theorem loadsCopyTheImmediateOrTheRegister : Obligations.LoadsCopyTheImmediateOrTheRegister := fun _ _ _ s =>
  ⟨⟨_, rfl, s.advance.readV_writeV_same .., rfl, s.advance_writeV_frame ..⟩,
    ⟨_, rfl, s.advance.readV_writeV_same .., rfl, s.advance_writeV_frame ..⟩⟩

/-- Settles O26: the sum is written by one register write, whose frame has VF in it only as X. -/
theorem addImmWrapsAndWritesNoFlag : Obligations.AddImmWrapsAndWritesNoFlag := fun _ _ s =>
  ⟨_, rfl, (congrArg BitVec.toNat (s.advance.readV_writeV_same ..)).trans (toNat_addResult ..), rfl,
    s.advance_writeV_frame ..⟩

/-- Settles O31: the masked byte is written whatever it is, and it is that of the first input laid out. -/
theorem rndMasksTheStepsRandomByte : Obligations.RndMasksTheStepsRandomByte := by
  intro x kk s
  have written : (s.advance.writeV x (s.rndIn &&& kk)).readV x = s.rndIn &&& kk := s.advance.readV_writeV_same ..
  exact ⟨_, rfl, written, fun _ _ h => State.rndIn_of_inputs_eq_cons h ▸ written, rfl, s.advance_writeV_frame ..⟩

/-! ## Advancing and writing a result, then the flag (R162) -/

theorem State.readV_writeResultThenFlag_VF (s : State) (x : Reg) (b f : Byte) :
    (s.writeResultThenFlag x b f).readV VF = f :=
  (s.readV_writeResultThenFlag x VF b f).trans (if_pos rfl)

theorem State.readV_writeResultThenFlag_of_ne (s : State) {x : Reg} (b f : Byte) (h : x ≠ VF) :
    (s.writeResultThenFlag x b f).readV x = b :=
  (s.readV_writeResultThenFlag x x b f).trans ((if_neg h).trans (if_pos rfl))

theorem State.advance_writeResultThenFlag_frame (s : State) (x : Reg) (b f : Byte) :
    OnlyChanges (fun r => r = x ∨ r = VF) [.pc] s (s.advance.writeResultThenFlag x b f) :=
  (s.advance_frame.within (by simp)).trans
    ((s.advance.writeResultThenFlag_frame x b f).mono (fun _ w => w) (by simp))

/-- What an instruction leaves that advances and writes a result and a flag: what holds of the result holds of V[X]
unless X = F, what holds of the flag holds of VF also then, and nothing else changed. -/
theorem exec_answers_resultThenFlag {i : Instr} {s : State} {x : Reg} {b f : Byte}
    (h : exec i s = .next (s.advance.writeResultThenFlag x b f)) (result flag : Byte → Prop) (hb : result b)
    (hf : flag f) :
    ∃ t, exec i s = .next t ∧ (x ≠ VF → result (t.readV x)) ∧ flag (t.readV VF) ∧ t.pc = s.pc + 2#16 ∧
      OnlyChanges (fun r => r = x ∨ r = VF) [.pc] s t := by
  refine ⟨_, h, fun hx => ?_, ?_, rfl, s.advance_writeResultThenFlag_frame x b f⟩
  · rwa [State.readV_writeResultThenFlag_of_ne _ b f hx]
  · rwa [State.readV_writeResultThenFlag_VF]

/-- Settles O27: the three differ in their result only, and their flag is 0. -/
theorem bitwiseOperationsClearTheFlag : Obligations.BitwiseOperationsClearTheFlag := fun _ _ _ =>
  ⟨exec_answers_resultThenFlag rfl (· = _) (· = _) rfl rfl,
    exec_answers_resultThenFlag rfl (· = _) (· = _) rfl rfl,
    exec_answers_resultThenFlag rfl (· = _) (· = _) rfl rfl⟩

/-- Settles O28: sum and carry are taken from the operands as they were. -/
theorem addRegWrapsAndSetsCarry : Obligations.AddRegWrapsAndSetsCarry := fun _ _ _ =>
  exec_answers_resultThenFlag rfl (·.toNat = _) (· = _) (toNat_addResult ..) (flagByte_decide _)

/-- Settles O29: the two are one subtraction with the operands exchanged. -/
theorem subtractsWrapAndSetNoBorrow : Obligations.SubtractsWrapAndSetNoBorrow := fun _ _ _ =>
  ⟨exec_answers_resultThenFlag rfl (·.toNat = _) (· = _) (toNat_subResult ..) (flagByte_decide _),
    exec_answers_resultThenFlag rfl (·.toNat = _) (· = _) (toNat_subResult ..) (flagByte_decide _)⟩

/-- Settles O30: result and flag are those of V[X] alone, so another Y gives the same outcome. -/
theorem shiftsMoveOneBitIntoTheFlag : Obligations.ShiftsMoveOneBitIntoTheFlag := fun _ _ _ =>
  ⟨exec_answers_resultThenFlag rfl (·.toNat = _) (·.toNat = _) (toNat_shrResult _) (toNat_lowBitFlag _),
    exec_answers_resultThenFlag rfl (·.toNat = _) (·.toNat = _) (toNat_shlResult _) (toNat_highBitFlag _),
    fun _ => ⟨rfl, rfl⟩⟩

end Sys2Proof.Machine

/-! The rules of the index register and of the transfers through it (42_index_memory.md): the values `I` takes, and what a
store or a load at `I` upward leaves behind where it is legal and where its first illegal access stops it. -/

namespace Sys2Proof.Machine

/-! ## The values of `I` (R170 to R172, R174, R175) -/

theorem toNat_add_widen (i : Half) (b : Byte) : (i + widen b).toNat = (i.toNat + b.toNat) % 0x10000 := by
  rw [BitVec.toNat_add, toNat_widen]

/-- The glyph address does not wrap: masking leaves a digit of at most 15. -/
theorem toNat_glyphAddr (b : Byte) : (glyphAddr b).toNat = 0x050 + b.toNat % 16 * 5 := by
  have nibble : (b &&& 0x0F#8).toNat = b.toNat % 16 :=
    (BitVec.toNat_and ..).trans (Nat.and_two_pow_sub_one_eq_mod b.toNat 4)
  rw [glyphAddr, nibble, BitVec.toNat_ofNat]
  exact Nat.mod_eq_of_lt (by simp only [Config.fontBase]; omega)

theorem State.toNat_indexAfter (s : State) (x : Reg) :
    (s.indexAfter x).toNat = (s.i.toNat + x.val + 1) % 0x10000 := by
  rw [State.indexAfter, regCount, BitVec.toNat_add, BitVec.toNat_ofNat]
  omega

theorem State.advance_writeI_frame (s : State) (w : Half) : OnlyChanges noReg [.pc, .i] s (s.advance.writeI w) :=
  (s.advance_frame.within (by simp)).trans ((s.advance.writeI_frame w).within (by simp))

/-- Settles O32: the three differ in the value they write to `I` over the advanced state. -/
theorem indexInstructionsSetTheIndex : Obligations.IndexInstructionsSetTheIndex := fun _ _ s =>
  ⟨⟨_, rfl, toNat_addrOperand _, rfl, s.advance_writeI_frame _⟩,
    ⟨_, rfl, toNat_add_widen .., rfl, s.advance_writeI_frame _⟩,
    ⟨_, rfl, toNat_glyphAddr _, rfl, s.advance_writeI_frame _⟩⟩

/-! ## Stores (R173, R174, R177) -/

/-- The first illegal write decides the fault: the fontset lies below 0xFFF, so its address tells the cause. -/
theorem writeBytes_of_firstBad {s : State} {bs : List Byte} {a : Nat} (h : FirstBad BadWrite s bs.length a) :
    writeBytes s.mem (s.dataAddr 0) bs = .error ⟨if 0xFFF < a then .memWriteOutOfRange else .fontWrite, a⟩ := by
  obtain ⟨legal, -⟩ | ⟨b, hb, cause⟩ := writeBytes_dataAddr_cases s bs
  · exact (h.not_canWrite legal).elim
  · obtain rfl : a = b := h.unique hb
    obtain ⟨high, e⟩ | ⟨-, low, e⟩ := cause
    · rw [e, if_pos high]
    · rw [e, if_neg (by omega)]

/-- A store whose first illegal write is at `a` faults there, with nothing written. -/
theorem State.storeThenIndex_of_firstBad {s : State} {bs : List Byte} {a : Nat} (after : Half)
    (h : FirstBad BadWrite s bs.length a) :
    s.storeThenIndex bs after =
      .next (s.takeFault ⟨if 0xFFF < a then .memWriteOutOfRange else .fontWrite, a⟩) := by
  rw [State.storeThenIndex, writeBytes_of_firstBad h]
  rfl

/-- Both faults of a store of `n` bytes, as claims write them. -/
theorem State.storeThenIndex_entersFault (s : State) {bs : List Byte} (after : Half) {n : Nat} (hn : bs.length = n) :
    (∀ a, FirstBad BadWrite s n a → 0xFFF < a →
        EntersFault (s.storeThenIndex bs after) s .memWriteOutOfRange a) ∧
      (∀ a, FirstBad BadWrite s n a → a ≤ 0xFFF → EntersFault (s.storeThenIndex bs after) s .fontWrite a) := by
  subst hn
  refine ⟨fun a bad high => ?_, fun a bad low => ?_⟩
  · rw [State.storeThenIndex_of_firstBad after bad, if_pos high]
    exact s.takeFault_entersFault _
  · rw [State.storeThenIndex_of_firstBad after bad, if_neg (Nat.not_lt.2 low)]
    exact s.takeFault_entersFault _

/-- A run of writes at `I` leaves every address that is none of its own. -/
theorem OutsideAccess.read_writeAll {s : State} {bs : List Byte} {a : Nat} (h : OutsideAccess s bs.length a) :
    Memory.read (Memory.writeAll s.mem s.i.toNat bs) a = Memory.read s.mem a := by
  refine Memory.read_writeAll_outside s.mem (not_not.1 fun inside => ?_)
  have addr : a = s.dataAddr (a - s.i.toNat) := by
    simp only [State.dataAddr]
    omega
  exact h _ (by omega) addr

theorem State.advance_mem_frame (s : State) (m : Memory) :
    OnlyChanges noReg [.pc, .mem] s { s.advance with mem := m } :=
  (s.advance_frame.within (by simp)).trans ((s.advance.mem_frame m).within (by simp))

/-- Settles O33: the digits are below 256, so their bytes hold them, and `I` is written back as it was. -/
theorem ldBStoresTheDecimalDigits : Obligations.LdBStoresTheDecimalDigits := by
  intro x s
  refine ⟨fun legal => ?_, s.storeThenIndex_entersFault s.i rfl⟩
  have value := (s.readV x).isLt
  have stored {k d : Nat} (hk : k < 3) (hd : d < 256) (e : (bcdDigits (s.readV x))[k] = BitVec.ofNat 8 d) :
      (Memory.read (Memory.writeAll s.mem s.i.toNat (bcdDigits (s.readV x))) (s.dataAddr k)).toNat = d := by
    rw [State.dataAddr, Memory.read_writeAll_add s.mem s.i.toNat hk, e]
    exact Nat.mod_eq_of_lt hd
  exact ⟨_, State.storeThenIndex_of_canWrite s.i legal, stored (by omega) (by omega) rfl,
    stored (by omega) (by omega) rfl, stored (by omega) (by omega) rfl, fun a outside => outside.read_writeAll, rfl,
    s.advance_mem_frame _⟩

/-- Settles O34: the run of writes is that of `firstRegs`, and `I` is written after it. -/
theorem stRegsStoresTheFirstRegisters : Obligations.StRegsStoresTheFirstRegisters := by
  intro x s
  have count := s.length_firstRegs x
  refine ⟨fun legal => ?_, s.storeThenIndex_entersFault (s.indexAfter x) count⟩
  have stored : exec (.stRegs x) s = _ := State.storeThenIndex_of_canWrite (s.indexAfter x) (count ▸ legal)
  exact ⟨_, stored, fun k hk => read_of_exec_stRegs legal stored hk,
    fun a outside => OutsideAccess.read_writeAll (count ▸ outside), s.toNat_indexAfter x, rfl,
    ((s.advance_mem_frame _).within (by simp)).trans ((State.writeI_frame ..).within (by simp))⟩

/-! ## Loads (R175, R177) -/

theorem readBytes_of_canRead {s : State} {count : Nat} (h : CanRead s count) :
    readBytes s.mem (s.dataAddr 0) count =
      .ok ((List.range count).map fun k => Memory.read s.mem (s.dataAddr k)) := by
  obtain ⟨-, e⟩ | ⟨a, bad, -⟩ := readBytes_dataAddr_cases s count
  · exact e
  · exact (bad.not_canRead h).elim

theorem readBytes_of_firstBad {s : State} {count a : Nat} (h : FirstBad BadRead s count a) :
    readBytes s.mem (s.dataAddr 0) count = .error ⟨.memReadOutOfRange, a⟩ := by
  obtain ⟨legal, -⟩ | ⟨b, hb, e⟩ := readBytes_dataAddr_cases s count
  · exact (h.not_canRead legal).elim
  · rw [e, h.unique hb]

/-- Where FX65 is legal, it leaves the bytes at `I` upward in V0 to V[X], and the other registers as they were. -/
theorem exec_ldRegs_of_canRead {x : Reg} {s : State} (h : CanRead s (x.val + 1)) :
    ∃ v : Vector Byte 16,
      (∀ r : Reg, v[r] = if r ≤ x then Memory.read s.mem (s.dataAddr r.val) else s.readV r) ∧
        exec (.ldRegs x) s = .next ({ s.advance with v := v }.writeI (s.indexAfter x)) := by
  refine ⟨writeRegsFrom s.v 0 ((List.range (x.val + 1)).map fun k => Memory.read s.mem (s.dataAddr k)),
    fun r => ?_, ?_⟩
  · have among_the_first : r.val < x.val + 1 ↔ r ≤ x := Nat.lt_succ_iff.trans Fin.le_def.symm
    rw [getElem_writeRegsFrom]
    simp [among_the_first, State.readV]
  · show execLdRegs x s = _
    rw [execLdRegs, regCount, readBytes_of_canRead h]
    rfl

theorem exec_ldRegs_of_firstBad {x : Reg} {s : State} {a : Nat} (h : FirstBad BadRead s (x.val + 1) a) :
    exec (.ldRegs x) s = .next (s.takeFault ⟨.memReadOutOfRange, a⟩) := by
  show execLdRegs x s = _
  rw [execLdRegs, regCount, readBytes_of_firstBad h]
  rfl

/-- Settles O35: the new register file is the loaded bytes up to V[X], and a fault is taken before any change. -/
theorem ldRegsLoadsTheFirstRegisters : Obligations.LdRegsLoadsTheFirstRegisters := by
  intro x s
  constructor
  · intro legal
    obtain ⟨v, loaded, e⟩ := exec_ldRegs_of_canRead legal
    refine ⟨_, e, fun k hk => (loaded k).trans (if_pos hk), s.toNat_indexAfter x, rfl, ?_⟩
    apply OnlyChanges.of_fields
    · exact fun r hr => (loaded r).trans (if_neg hr)
    all_goals simp
  · intro a bad
    rw [exec_ldRegs_of_firstBad bad]
    exact s.takeFault_entersFault _

end Sys2Proof.Machine

/-! The rules of the display (43_display.md): what CLS leaves, which pixels a draw inverts and what VF says of them, and
what follows for two draws from one origin modulo the grid and for a draw repeated. -/

namespace Sys2Proof.Machine

/-! ## CLS (R190) -/

theorem State.disp_frame (s : State) (d : Display) : OnlyChanges noReg [.disp] s { s with disp := d } := by
  apply OnlyChanges.of_fields <;> simp [State.readV]

/-- Settles O38: the display is replaced by the blank one over the advanced state. -/
theorem clsClearsEveryPixel : Obligations.ClsClearsEveryPixel := fun s =>
  ⟨_, rfl, Display.pix_blank, rfl,
    (s.advance_frame.within (by simp)).trans ((s.advance.disp_frame _).within (by simp))⟩

/-! ## One pixel (R192, R194) -/

/-- What a pixel becomes is fixed by what it was and by whether it is hit. -/
theorem Toggles.unique {p : Prop} {b a a' : Bool} (h : Toggles p b a) (h' : Toggles p b a') : a' = a := by
  by_cases hp : p
  · exact (h'.1 hp).trans (h.1 hp).symm
  · exact (h'.2 hp).trans (h.2 hp).symm

/-- Hit twice, a pixel is what it was. -/
theorem Toggles.twice {p : Prop} {b m a : Bool} (h : Toggles p b m) (h' : Toggles p m a) : a = b := by
  by_cases hp : p
  · rw [h'.1 hp, h.1 hp, Bool.not_not]
  · rw [h'.2 hp, h.2 hp]

/-- A lit pixel goes out exactly if it is hit. -/
theorem Toggles.hit_and_lit_iff {p : Prop} {b a : Bool} (h : Toggles p b a) :
    p ∧ b = true ↔ b = true ∧ a = false := by
  by_cases hp : p
  · simp [hp, h.1 hp]
  · simp [hp, h.2 hp]

/-! ## What DRW answers (R191, R192, R195) -/

/-- From `d` to `d'` at least one pixel went from lit to unlit (R195). -/
def PutsOut (d d' : Display) : Prop := ∃ px py, d.pix px py = true ∧ d'.pix px py = false

theorem PutsOut.congr {d d' e e' : Display} (h : ∀ px py, e.pix px py = d.pix px py)
    (h' : ∀ px py, e'.pix px py = d'.pix px py) : PutsOut e e' ↔ PutsOut d d' := by
  simp only [PutsOut, h, h']

/-- The compositor's rows, read from memory at `I` upward, hit the pixels that `SpriteHits` says. -/
theorem rowsHit_iff_spriteHits (s : State) (x0 y0 : Byte) (n : Nat) (px : Fin 64) (py : Fin 32) :
    RowsHit x0 y0 0 ((List.range n).map fun k => Memory.read s.mem (s.dataAddr k)) px py ↔
      SpriteHits s x0 y0 n px py := by
  simp only [RowsHit, ByteHits, SpriteHits, spriteColumn, spriteRow, Fin.ext_iff, Fin.ofNat]
  constructor
  · rintro ⟨r, hr, ⟨b, hb, bit, hx⟩, hy⟩
    exact ⟨r, b, by simpa using hr, hb, by simpa using bit, hx, by simpa using hy⟩
  · rintro ⟨r, b, hr, hb, bit, hx, hy⟩
    exact ⟨r, by simpa using hr, ⟨b, hb, by simpa using bit, hx⟩, by simpa using hy⟩

/-- A draw whose reads are all legal shows a canvas on which the sprite's pixels are inverted, and whose collision bit
says whether one of them went out. -/
theorem exec_drw_of_canRead {x y : Reg} {n : Nibble} {s : State} (legal : CanRead s n.toNat) :
    ∃ c : Canvas, exec (.drw x y n) s = .next (s.advance.showCanvas c) ∧
      (∀ px py, Toggles (SpriteHits s (s.readV x) (s.readV y) n.toNat px py)
        (s.disp.pix px py) (c.disp.pix px py)) ∧
      (c.coll = true ↔ PutsOut s.disp c.disp) := by
  have few : ((List.range n.toNat).map fun k => Memory.read s.mem (s.dataAddr k)).length ≤ 16 := by
    simpa using n.isLt.le
  obtain ⟨toggles, coll⟩ := drawSprite_spec s.disp (s.readV x) (s.readV y) _ few
  refine ⟨_, ?_, fun px py => ?_, coll.trans ?_⟩
  · show execDrw x y n s = _
    rw [execDrw, readBytes_of_canRead legal]
    rfl
  · rw [← rowsHit_iff_spriteHits]
    exact toggles px py
  · exact exists_congr fun px => exists_congr fun py => (toggles px py).hit_and_lit_iff

theorem exec_drw_of_firstBad {x y : Reg} {n : Nibble} {s : State} {a : Nat} (h : FirstBad BadRead s n.toNat a) :
    exec (.drw x y n) s = .next (s.takeFault ⟨.memReadOutOfRange, a⟩) := by
  show execDrw x y n s = _
  rw [execDrw, readBytes_of_firstBad h]
  rfl

theorem State.readV_showCanvas_VF (s : State) (c : Canvas) : (s.showCanvas c).readV VF = flagByte c.coll :=
  State.readV_writeV_same ..

theorem State.advance_showCanvas_frame (s : State) (c : Canvas) :
    OnlyChanges (· = VF) [.pc, .disp] s (s.advance.showCanvas c) :=
  (s.advance_frame.within (by simp)).trans ((s.advance.showCanvas_frame c).mono (fun _ w => w) (by simp))

theorem flagByte_eq_one_iff {c : Bool} : flagByte c = 1#8 ↔ c = true := by cases c <;> decide

/-- Settles O39: the canvas shown is that of `exec_drw_of_canRead`, and a fault is taken before any change. -/
theorem drwInvertsTheSpritePixelsAndSetsCollision : Obligations.DrwInvertsTheSpritePixelsAndSetsCollision := by
  intro x y n s
  constructor
  · intro legal
    obtain ⟨c, e, toggles, coll⟩ := exec_drw_of_canRead (x := x) (y := y) legal
    have flag : (s.advance.showCanvas c).readV VF = flagByte c.coll := s.advance.readV_showCanvas_VF c
    refine ⟨_, e, fun px py => (toggles px py).1, fun px py => (toggles px py).2, fun out => ?_, fun none_out => ?_,
      rfl, s.advance_showCanvas_frame c⟩
    · rw [flag, coll.2 out]
      rfl
    · rw [flag, Bool.eq_false_of_not_eq_true (mt coll.1 none_out)]
      rfl
  · intro a bad
    rw [exec_drw_of_firstBad bad]
    exact s.takeFault_entersFault _

/-! ## What a draw depends on (R193) -/

/-! Two states with one index: the addresses `I`, `I + 1`, … are the same ones. -/

theorem State.dataAddr_congr {s t : State} (hi : t.i = s.i) : t.dataAddr = s.dataAddr := by
  funext k
  rw [State.dataAddr, State.dataAddr, hi]

theorem CanRead.congr {s t : State} {count : Nat} (hi : t.i = s.i) : CanRead t count ↔ CanRead s count := by
  rw [CanRead, CanRead, State.dataAddr_congr hi]

theorem FirstBad.congr {bad : Nat → Prop} {s t : State} {count a : Nat} (hi : t.i = s.i) :
    FirstBad bad t count a ↔ FirstBad bad s count a := by
  rw [FirstBad, FirstBad, State.dataAddr_congr hi]

/-- The sprite in memory and its origin modulo the grid are all that the pixels hit depend on. -/
theorem SpriteHits.congr {s t : State} {x0 y0 x0' y0' : Byte} {n : Nat} {px : Fin 64} {py : Fin 32} (hi : t.i = s.i)
    (hm : ∀ a, Memory.read t.mem a = Memory.read s.mem a) (hx : x0'.toNat % 64 = x0.toNat % 64)
    (hy : y0'.toNat % 32 = y0.toNat % 32) : SpriteHits t x0' y0' n px py ↔ SpriteHits s x0 y0 n px py := by
  have column (b : Nat) : (x0'.toNat + b) % 64 = (x0.toNat + b) % 64 := Nat.ModEq.add_right b hx
  have row (r : Nat) : (y0'.toNat + r) % 32 = (y0.toNat + r) % 32 := Nat.ModEq.add_right r hy
  simp only [SpriteHits, State.dataAddr_congr hi, hm, column, row]

/-- Settles O40: legal or not, both draws read the same sprite; it hits the same pixels, and these were alike before. -/
theorem drwTakesItsOriginModuloTheGrid : Obligations.DrwTakesItsOriginModuloTheGrid := by
  intro x y n s s' t t' f hx hy h h'
  have hi : s'.i = s.i := f.i (by simp)
  have before : ∀ px py, s'.disp.pix px py = s.disp.pix px py := f.disp (by simp)
  have status : s'.status = s.status := f.status (by simp)
  obtain ⟨legal, -⟩ | ⟨a, bad, -⟩ := readBytes_dataAddr_cases s n.toNat
  · obtain ⟨c, e, toggles, coll⟩ := exec_drw_of_canRead (x := x) (y := y) legal
    obtain ⟨c', e', toggles', coll'⟩ := exec_drw_of_canRead (x := x) (y := y) ((CanRead.congr hi).2 legal)
    obtain rfl := Host.Outcome.next.inj (e.symm.trans h)
    obtain rfl := Host.Outcome.next.inj (e'.symm.trans h')
    have after (px py) : c'.disp.pix px py = c.disp.pix px py := by
      have toggled := toggles' px py
      rw [SpriteHits.congr hi (f.mem (by simp)) hx hy, before] at toggled
      exact (toggles px py).unique toggled
    have same_coll : c'.coll = c.coll := Bool.eq_iff_iff.2 (coll'.trans ((PutsOut.congr before after).trans coll.symm))
    refine ⟨after, status, fun _ => ?_⟩
    rw [State.readV_showCanvas_VF, State.readV_showCanvas_VF, same_coll]
  · obtain rfl := Host.Outcome.next.inj ((exec_drw_of_firstBad bad).symm.trans h)
    obtain rfl := Host.Outcome.next.inj ((exec_drw_of_firstBad ((FirstBad.congr hi).2 bad)).symm.trans h')
    exact ⟨before, rfl, fun legal => (bad.not_canRead legal).elim⟩

/-! ## A draw repeated (R194, R195) -/

/-- Settles O41: a draw keeps the sprite and its origin, so the second one inverts the same pixels back, and those
it puts out are those the first one lit. -/
theorem drawingTwiceRestoresTheDisplay : Obligations.DrawingTwiceRestoresTheDisplay := by
  intro x y n s t u hx hy legal ht hu
  obtain ⟨c, e, toggles, -⟩ := exec_drw_of_canRead (x := x) (y := y) legal
  obtain rfl := Host.Outcome.next.inj (e.symm.trans ht)
  have f := s.advance_showCanvas_frame c
  have legal' := (CanRead.congr (f.i (by simp))).2 legal
  obtain ⟨c', e', toggles', coll'⟩ := exec_drw_of_canRead (x := x) (y := y) legal'
  obtain rfl := Host.Outcome.next.inj (e'.symm.trans hu)
  have restored (px py) : c'.disp.pix px py = s.disp.pix px py := by
    have toggled := toggles' px py
    rw [f.v x hx, f.v y hy, SpriteHits.congr (f.i (by simp)) (f.mem (by simp)) rfl rfl] at toggled
    exact (toggles px py).twice toggled
  refine ⟨restored, ?_⟩
  calc ((s.advance.showCanvas c).advance.showCanvas c').readV VF = 1#8
      ↔ c'.coll = true := by rw [State.readV_showCanvas_VF, flagByte_eq_one_iff]
    _ ↔ PutsOut c.disp c'.disp := coll'
    _ ↔ PutsOut c.disp s.disp := PutsOut.congr (fun _ _ => rfl) restored
    _ ↔ ∃ px py, s.disp.pix px py = false ∧ c.disp.pix px py = true :=
      exists_congr fun _ => exists_congr fun _ => and_comm

end Sys2Proof.Machine

/-! The rules of the keys and the timers (44_keys_timers.md): which way a key skip goes, what the key wait takes and
when it stays where it is, and the transfers between a register and a timer. -/

namespace Sys2Proof.Machine

/-! ## The key skips (R210, R211, R216) -/

theorem State.pressed_iff (s : State) (k : Nat) : s.pressed k = true ↔ k < 16 ∧ s.keys.getLsbD k = true := by
  rw [State.pressed, Bool.and_eq_true, decide_eq_true_iff]

theorem State.not_pressed_iff (s : State) (k : Nat) :
    (!s.pressed k) = true ↔ ¬ (k < 16 ∧ s.keys.getLsbD k = true) := by
  rw [Bool.not_eq_true', ← Bool.not_eq_true, State.pressed_iff]

/-- Settles O43: the condition of SKP is that the whole byte V[X] is a pressed key, and SKNP negates it. -/
theorem keySkipsTestTheUnmaskedKeyIndex : Obligations.KeySkipsTestTheUnmaskedKeyIndex := by
  intro x s
  have skp := s.advance_skipIf_pc (s.pressed_iff (s.readV x).toNat)
  have sknp := s.advance_skipIf_pc (s.not_pressed_iff (s.readV x).toNat)
  exact ⟨⟨_, rfl, fun h => skp.trans (if_pos h), fun h => skp.trans (if_neg h), s.advance_skipIf_frame _⟩,
    ⟨_, rfl, fun h => sknp.trans (if_neg (not_not_intro h)), fun h => sknp.trans (if_pos h), s.advance_skipIf_frame _⟩⟩

/-! ## The key wait (R213) -/

/-- The scan answers the one pressed key that has no pressed key below it. -/
theorem State.lowestKey_of_lowest {s : State} {k : Nat} (hk : k < 16) (pressed : s.keys.getLsbD k = true)
    (lowest : ∀ j, j < k → s.keys.getLsbD j = false) : s.lowestKey = some k := by
  rw [State.lowestKey, List.find?_range_eq_some]
  exact ⟨pressed, List.mem_range.2 hk, fun j hj => by rw [lowest j hj]; rfl⟩

theorem exec_ldKey_of_some (x : Reg) {s : State} {k : Nat} (h : s.lowestKey = some k) :
    exec (.ldKey x) s = .next (s.advance.writeV x (BitVec.ofNat 8 k)) := by
  show execLdKey x s = _
  rw [execLdKey, h]

theorem State.advance_writePc_back (s : State) : s.advance.writePc (s.advance.pc - 2#16) = s :=
  congrArg s.writePc (BitVec.add_sub_cancel ..)

theorem exec_ldKey_of_none (x : Reg) {s : State} (h : s.lowestKey = none) : exec (.ldKey x) s = .next s := by
  show execLdKey x s = _
  rw [execLdKey, h, State.advance_writePc_back]

/-- Settles O44: the lowest pressed key is the one the scan finds, and with none pressed the pc is set back over its
advance, so that the state is the one before. -/
theorem keyWaitTakesTheLowestKeyOrRearms : Obligations.KeyWaitTakesTheLowestKeyOrRearms := by
  intro x s
  constructor
  · intro k pressed lowest
    have found : s.lowestKey = some k.val :=
      State.lowestKey_of_lowest k.isLt pressed fun j hj => lowest ⟨j, hj.trans k.isLt⟩ hj
    have fits : k.val < 2 ^ 8 := k.isLt.trans (by decide)
    have loaded : ((s.advance.writeV x (BitVec.ofNat 8 k.val)).readV x).toNat = k.val := by
      rw [State.readV_writeV_same, BitVec.toNat_ofNat, Nat.mod_eq_of_lt fits]
    exact ⟨_, exec_ldKey_of_some x found, loaded, rfl, s.advance_writeV_frame ..⟩
  · intro released
    have nothing : s.lowestKey = none := by
      obtain ⟨k, hk, pressed, -⟩ | ⟨-, h⟩ := s.lowestKey_cases
      · exact absurd pressed (Bool.eq_false_iff.1 (released ⟨k, hk⟩))
      · exact h
    exact ⟨s, exec_ldKey_of_none x nothing, OnlyChanges.refl ..⟩

/-! ## The timer transfers (R212, R214, R215) -/

theorem State.dt_frame (s : State) (b : Byte) : OnlyChanges noReg [.dt] s { s with dt := b } := by
  apply OnlyChanges.of_fields <;> simp [State.readV]

theorem State.st_frame (s : State) (b : Byte) : OnlyChanges noReg [.st] s { s with st := b } := by
  apply OnlyChanges.of_fields <;> simp [State.readV]

/-- Settles O45: each transfer is one write over the advanced state, of the value before the step's tick. -/
theorem timerTransfersCopyTheByte : Obligations.TimerTransfersCopyTheByte := fun _ s =>
  ⟨⟨_, rfl, s.advance.readV_writeV_same .., rfl, s.advance_writeV_frame ..⟩,
    ⟨_, rfl, rfl, rfl, (s.advance_frame.within (by simp)).trans ((s.advance.dt_frame _).within (by simp))⟩,
    ⟨_, rfl, rfl, rfl, (s.advance_frame.within (by simp)).trans ((s.advance.st_frame _).within (by simp))⟩⟩

end Sys2Proof.Machine

/-! The rules of faults, of the timer tick and of the host's access between steps (60_exceptions.md): a step faults
exactly where the fault table says so and then changes `STATUS` only, both timers tick at the end of a step that does not
fault, and what the host can do to a faulted block, to the keys and to the display. -/

namespace Sys2Proof.Machine

/-! ## The fault table (R230, R234) -/

theorem not_firstBad_zero {bad : Nat → Prop} {s : State} {a : Nat} : ¬ FirstBad bad s 0 a :=
  fun ⟨_, hk, _⟩ => Nat.not_lt_zero _ hk

theorem NextInstr.iff_eq {s : State} {i j : Instr} (h : NextInstr s i) : NextInstr s j ↔ j = i :=
  ⟨fun h' => h'.unique h, fun e => e ▸ h⟩

/-- What an instruction raises that makes so many reads and so many writes through `I` (R230, rows 2, 3 and 6); all but
CALL and RET are such. -/
def AccessRaises (s : State) (reads writes : Nat) (c : FaultCause) (a : Nat) : Prop :=
  (c = .memReadOutOfRange ∧ FirstBad BadRead s reads a) ∨
    (c = .memWriteOutOfRange ∧ FirstBad BadWrite s writes a ∧ 0xFFF < a) ∨
    (c = .fontWrite ∧ FirstBad BadWrite s writes a ∧ 0x050 ≤ a ∧ a ≤ 0x09F)

theorem raises_iff_accessRaises {s : State} {i : Instr} {c : FaultCause} {a : Nat} (not_call : ∀ nnn, i ≠ .call nnn)
    (not_ret : i ≠ .ret) : Raises s i ⟨c, a⟩ ↔ AccessRaises s (dataReads i) (dataWrites i) c a := by
  cases i with
  | call nnn => exact (not_call nnn rfl).elim
  | ret => exact (not_ret rfl).elim
  | _ => exact Iff.rfl

theorem AccessRaises.of_no_writes {s : State} {reads a : Nat} {c : FaultCause} (h : AccessRaises s reads 0 c a) :
    c = .memReadOutOfRange ∧ FirstBad BadRead s reads a := by
  obtain h | ⟨-, bad, -⟩ | ⟨-, bad, -⟩ := h
  · exact h
  · exact (not_firstBad_zero bad).elim
  · exact (not_firstBad_zero bad).elim

/-- The fontset lies below 0xFFF, so the address of a failing write tells the cause. -/
theorem AccessRaises.of_no_reads {s : State} {writes a : Nat} {c : FaultCause} (h : AccessRaises s 0 writes c a) :
    c = (if 0xFFF < a then .memWriteOutOfRange else .fontWrite) ∧ FirstBad BadWrite s writes a := by
  obtain ⟨-, bad⟩ | ⟨rfl, bad, high⟩ | ⟨rfl, bad, -, low⟩ := h
  · exact (not_firstBad_zero bad).elim
  · exact ⟨(if_pos high).symm, bad⟩
  · exact ⟨(if_neg (by omega)).symm, bad⟩

/-- Of the instruction at the pc, the fault table says what `Raises` says. -/
theorem NextInstr.raises_iff_faultDue {s : State} {i : Instr} {c : FaultCause} {n : Nat} (hi : NextInstr s i) :
    Raises s i ⟨c, n⟩ ↔ FaultDue s c n := by
  have legal : ¬ 0xFFE < s.pc.toNat := Nat.not_lt.2 hi.1
  have access : (∀ nnn, i ≠ .call nnn) → i ≠ .ret → (Raises s i ⟨c, n⟩ ↔ FaultDue s c n) := by
    intro not_call not_ret
    rw [raises_iff_accessRaises not_call not_ret]
    cases c <;> simp [AccessRaises, FaultDue, hi.iff_eq, legal, not_call, not_ret, eq_comm]
  cases i with
  | call | ret => cases c <;> simp [Raises, FaultDue, hi.iff_eq, legal, dataReads, dataWrites, not_firstBad_zero]
  | _ => exact access nofun nofun

/-- Every row of the table but the first is about the instruction at the pc. -/
theorem FaultDue.fetch_or_nextInstr {s : State} {c : FaultCause} {n : Nat} (h : FaultDue s c n) :
    (0xFFE < s.pc.toNat ∧ c = .fetchOutOfRange ∧ n = s.pc.toNat) ∨ ∃ i, NextInstr s i := by
  cases c with
  | fetchOutOfRange => exact .inl ⟨h.1, rfl, h.2⟩
  | memReadOutOfRange | memWriteOutOfRange | fontWrite =>
    obtain ⟨i, hi, -⟩ := h
    exact .inr ⟨i, hi⟩
  | stackOverflow =>
    obtain ⟨⟨nnn, hi⟩, -⟩ := h
    exact .inr ⟨_, hi⟩
  | stackUnderflow => exact .inr ⟨_, h.1⟩

/-- The fault an instruction raises is the one it takes; `exec_cases` has the other direction. -/
theorem exec_of_raises {i : Instr} {s : State} {c : FaultCause} {a : Nat} (h : Raises s i ⟨c, a⟩) :
    exec i s = .next (s.takeFault ⟨c, a⟩) := by
  have store : ∀ {bs : List Byte} {after : Half}, AccessRaises s 0 bs.length c a →
      s.storeThenIndex bs after = .next (s.takeFault ⟨c, a⟩) := by
    intro bs after raised
    obtain ⟨rfl, bad⟩ := raised.of_no_reads
    exact State.storeThenIndex_of_firstBad after bad
  cases i with
  | call nnn =>
    obtain ⟨full, e⟩ := h
    exact e ▸ exec_call_of_full nnn full
  | ret =>
    obtain ⟨empty, e⟩ := h
    exact e ▸ exec_ret_of_empty empty
  | drw x y n =>
    obtain ⟨rfl, bad⟩ := AccessRaises.of_no_writes h
    exact exec_drw_of_firstBad bad
  | ldRegs x =>
    obtain ⟨rfl, bad⟩ := AccessRaises.of_no_writes h
    exact exec_ldRegs_of_firstBad bad
  | ldB x => exact store h
  | stRegs x => exact store ((s.length_firstRegs x).symm ▸ h)
  | _ =>
    obtain ⟨-, bad⟩ := AccessRaises.of_no_writes h
    exact (not_firstBad_zero bad).elim

/-- The step of a running block that a row of the table is about: whatever raised, only the fault is left. -/
theorem step_of_faultDue {s : State} {c : FaultCause} {n : Nat} (hs : s.status = .running) (h : FaultDue s c n) :
    step s = .next (s.fetchFaultStep ⟨c, n⟩) := by
  obtain ⟨hpc, rfl, rfl⟩ | ⟨i, hi⟩ := h.fetch_or_nextInstr
  · exact step_of_fetchFault hs hpc
  · have begun : NextInstr s.beginStep i := hi
    have raised : exec i s.beginStep = .next (s.beginStep.takeFault ⟨c, n⟩) :=
      exec_of_raises (begun.raises_iff_faultDue.2 h)
    exact (step_of_exec_next hs hi raised).trans (congrArg _ (State.afterExecute_faulted rfl))

theorem faultDue_of_step {s t : State} {c : FaultCause} {n : Nat} (hs : s.status = .running) (h : step s = .next t)
    (ht : t.status = .faulted c n) : FaultDue s c n := by
  obtain ⟨_, _, hf, -⟩ | ⟨-, hpc, rfl⟩ | ⟨-, -, -, w, rfl⟩ |
    ⟨-, i, hi, ⟨r, hr, rfl⟩ | ⟨-, u, -, hu, -, rfl⟩⟩ := step_next_cases h
  · cases hs.symm.trans hf
  · cases ht
    exact ⟨hpc, rfl⟩
  · cases hs.symm.trans ht
  · cases ht
    exact hi.raises_iff_faultDue.1 hr
  · cases hu.symm.trans ht

/-- Settles O11: `faultDue_of_step` and `step_of_faultDue` are the two directions, and the codes are computed. -/
theorem stepFaultsExactlyByTheFaultTable : Obligations.StepFaultsExactlyByTheFaultTable := by
  refine ⟨fun s t c n hs h => ⟨faultDue_of_step hs h, fun due => ?_⟩, rfl⟩
  cases h.symm.trans (step_of_faultDue hs due)
  rfl

/-! ## Fault entry (R231) -/

/-- Settles O10: the fault was due, so the step is `fetchFaultStep`, with its frame. -/
theorem faultEntryChangesOnlyStatus : Obligations.FaultEntryChangesOnlyStatus := by
  intro s t c n hs h ht
  cases h.symm.trans (step_of_faultDue hs (faultDue_of_step hs h ht))
  exact ⟨rfl, s.fetchFaultStep_frame _⟩

/-! ## The timer tick (R250) -/

theorem State.tickIn_of_inputs_eq_cons {s : State} {inp : StepInput} {rest : List StepInput}
    (h : s.inputs = inp :: rest) : s.tickIn = inp.tick := by
  rw [State.tickIn, State.input, h]

theorem dt_mem_mayChange {i : Instr} (h : .dt ∈ mayChange i) : ∃ x, i = .ldToDt x := by
  cases i with
  | ldToDt x => exact ⟨x, rfl⟩
  | _ => simp [mayChange] at h

theorem st_mem_mayChange {i : Instr} (h : .st ∈ mayChange i) : ∃ x, i = .ldToSt x := by
  cases i with
  | ldToSt x => exact ⟨x, rfl⟩
  | _ => simp [mayChange] at h

/-- Settles O9: both timers count down from what the instruction left, which is `V[X]` or the old value. -/
theorem timersTickTogetherAtTheEndOfTheStep : Obligations.TimersTickTogetherAtTheEndOfTheStep := by
  intro s t hs h ht
  obtain ⟨_, _, hf, -⟩ | ⟨-, -, rfl⟩ | ⟨-, -, unknown, w, rfl⟩ |
    ⟨-, i, hi, ⟨r, -, rfl⟩ | ⟨-, u, hu, -, f, rfl⟩⟩ := step_next_cases h
  · cases hs.symm.trans hf
  · cases ht
  · exact ⟨fun x hx => (unknown _ hx).elim, fun _ => countDown_toNat .., fun x hx => (unknown _ hx).elim,
      fun _ => countDown_toNat .., fun _ _ => State.tickIn_of_inputs_eq_cons⟩
  · cases ht
  · refine ⟨fun x hx => ?_, fun other => ?_, fun x hx => ?_, fun other => ?_,
      fun _ _ => State.tickIn_of_inputs_eq_cons⟩
    · cases hi.unique hx
      cases hu
      exact countDown_toNat ..
    · have kept : u.dt = s.dt := f.dt fun hmem =>
        let ⟨x, e⟩ := dt_mem_mayChange hmem
        other ⟨x, e ▸ hi⟩
      exact kept ▸ countDown_toNat ..
    · cases hi.unique hx
      cases hu
      exact countDown_toNat ..
    · have kept : u.st = s.st := f.st fun hmem =>
        let ⟨x, e⟩ := st_mem_mayChange hmem
        other ⟨x, e ▸ hi⟩
      exact kept ▸ countDown_toNat ..

/-! ## The display snapshot (R247) -/

theorem State.getElem?_readDisplay (s : State) (x : Fin 64) (y : Fin 32) :
    s.readDisplay[y.val * 64 + x.val]? = some (s.disp.pix x y) := by
  have inside : y.val * 64 + x.val < 2048 := by omega
  have column : Fin.ofNat 64 (y.val * 64 + x.val) = x := Fin.ext (by simp only [Fin.ofNat]; omega)
  have row : Fin.ofNat 32 ((y.val * 64 + x.val) / 64) = y := Fin.ext (by simp only [Fin.ofNat]; omega)
  rw [State.readDisplay, List.getElem?_map, List.getElem?_range inside, Option.map_some, column, row]

theorem State.readDisplay_congr {s t : State} (h : ∀ x y, t.disp.pix x y = s.disp.pix x y) :
    t.readDisplay = s.readDisplay :=
  List.map_congr_left fun _ _ => h _ _

theorem disp_mem_mayChange {i : Instr} (h : .disp ∈ mayChange i) : i = .cls ∨ ∃ x y n, i = .drw x y n := by
  cases i with
  | cls => exact .inl rfl
  | drw x y n => exact .inr ⟨x, y, n, rfl⟩
  | _ => simp [mayChange] at h

/-- Settles O42: the elements are numbered row by row, and of all steps only a completed CLS or DRW changes a pixel. -/
theorem displaySnapshotIsRowMajorAndStaysValid : Obligations.DisplaySnapshotIsRowMajorAndStaysValid := by
  intro font s
  refine ⟨rfl, by simp [State.readDisplay], s.getElem?_readDisplay, fun t h quiet => ?_⟩
  obtain ⟨_, _, -, rfl⟩ | ⟨-, -, rfl⟩ | ⟨-, -, -, w, rfl⟩ |
    ⟨-, i, hi, ⟨r, -, rfl⟩ | ⟨-, u, -, hu, f, rfl⟩⟩ := step_next_cases h
  · rfl
  · rfl
  · rfl
  · rfl
  · obtain ⟨not_cls, not_drw⟩ := quiet hu
    refine State.readDisplay_congr (f.disp fun hmem => ?_)
    obtain rfl | ⟨x, y, n, rfl⟩ := disp_mem_mayChange hmem
    · exact not_cls hi
    · exact not_drw x y n hi

/-! ## The key input (R246) -/

theorem State.setKey_of_ge (s : State) {key : Nat} (pressed : Bool) (h : 16 ≤ key) : s.setKey key pressed = s :=
  if_pos h

theorem State.setKey_of_lt (s : State) {key : Nat} (pressed : Bool) (h : key < 16) :
    s.setKey key pressed =
      { s with keys := if pressed then s.keys ||| 1#16 <<< key else s.keys &&& ~~~(1#16 <<< key) } :=
  if_neg (Nat.not_le.2 h)

theorem State.keys_frame (s : State) (keys : BitVec 16) : OnlyChanges noReg [.keys] s { s with keys := keys } := by
  apply OnlyChanges.of_fields <;> simp [State.readV]

theorem State.setKey_frame (s : State) (key : Nat) (pressed : Bool) :
    OnlyChanges noReg [.keys] s (s.setKey key pressed) := by
  obtain h | h := Nat.lt_or_ge key 16
  · rw [s.setKey_of_lt pressed h]
    exact s.keys_frame _
  · rw [s.setKey_of_ge pressed h]
    exact OnlyChanges.refl ..

/-- The mask of one key. -/
theorem getLsbD_one_shiftLeft {key : Nat} (h : key < 16) (k : Nat) : (1#16 <<< key).getLsbD k = decide (k = key) := by
  rw [← BitVec.twoPow_eq, BitVec.getLsbD_twoPow, decide_eq_true h, Bool.true_and]
  exact decide_eq_decide.2 eq_comm

theorem State.getLsbD_setKey (s : State) {key k : Nat} (pressed : Bool) (h : key < 16) (hk : k < 16) :
    (s.setKey key pressed).keys.getLsbD k = if k = key then pressed else s.keys.getLsbD k := by
  rw [s.setKey_of_lt pressed h]
  cases pressed with
  | true =>
    show (s.keys ||| 1#16 <<< key).getLsbD k = _
    rw [BitVec.getLsbD_or, getLsbD_one_shiftLeft h]
    by_cases e : k = key <;> simp [e]
  | false =>
    show (s.keys &&& ~~~(1#16 <<< key)).getLsbD k = _
    rw [BitVec.getLsbD_and, BitVec.getLsbD_not, getLsbD_one_shiftLeft h]
    by_cases e : k = key <;> simp [e, hk]

/-- Settles O54: below 16 the mask of the key is set or cleared in the keys. -/
theorem setKeyWritesOneKeyBit : Obligations.SetKeyWritesOneKeyBit := fun s key pressed =>
  ⟨s.setKey_of_ge pressed, fun h => ⟨s.setKey_frame key pressed, fun _ => s.getLsbD_setKey pressed h⟩⟩

/-! ## A faulted block (R233) -/

theorem State.quiescentStep_frame (s : State) : OnlyChanges noReg [.event, .supply] s s.quiescentStep :=
  (s.beginStep_frame.within (by simp)).trans (s.beginStep.consumeInput_frame.within (by simp))

theorem State.loadRom_status (s : State) (bytes : List Byte) : (s.loadRom bytes).2.status = s.status := by
  obtain h | h := Nat.lt_or_ge 3584 bytes.length
  · rw [s.loadRom_of_tooLarge h]
  · rw [s.loadRom_of_fits h]

theorem State.hostStep_of_faulted {s : State} {c : FaultCause} {n : Nat} (tick : Bool) (rnd : Byte)
    (hs : s.status = .faulted c n) : s.hostStep tick rnd = .next (s.withInput ⟨tick, rnd⟩).quiescentStep :=
  step_of_faulted (s := s.withInput ⟨tick, rnd⟩) hs

/-- Settles O13: the step is the quiescent one, and no other operation but Reset writes `STATUS`. -/
theorem faultedBlockIsQuiescent : Obligations.FaultedBlockIsQuiescent := by
  intro font s c n hs
  refine ⟨⟨_, step_of_faulted hs, rfl, s.quiescentStep_frame⟩, fun op t answer not_reset h => ?_, ⟨_, rfl, rfl⟩⟩
  cases op with
  | reset => exact (not_reset rfl).elim
  | loadRom bytes =>
    cases h
    exact (s.loadRom_status bytes).trans hs
  | step tick rnd =>
    rw [State.hostOp, State.hostStep_of_faulted tick rnd hs] at h
    cases h
    exact hs
  | setKey key pressed =>
    cases h
    exact ((s.setKey_frame key pressed).status (by simp)).trans hs
  | readDisplay =>
    cases h
    exact hs

end Sys2Proof.Machine

/-! The rules of reset and of the host's operations between steps (70_reset_and_hazards.md): every field right after
Reset, the invariant there and after each operation, and the first word of a ROM that was booted. -/

namespace Sys2Proof.Machine

/-! ## Reset (R270) -/

/-- `State.resetWith` is one of the states that Reset leaves, so what holds after Reset holds of it. -/
theorem State.resetWith_eq_hostReset (font : Config.Font) : State.resetWith font = State.reset.hostReset font := rfl

theorem State.hostReset_hostReset (s : State) (font : Config.Font) :
    (s.hostReset font).hostReset font = s.hostReset font := rfl

@[simp] theorem State.readV_hostReset (s : State) (font : Config.Font) (r : Reg) :
    (s.hostReset font).readV r = 0#8 := by
  simp [State.readV]

@[simp] theorem State.readStack_hostReset (s : State) (font : Config.Font) (j : Fin 16) :
    (s.hostReset font).readStack j = 0#16 := by
  simp [State.readStack]

/-- Address 0x055 holds `FONT[5]`, the byte that every `FONT` has (00_scope.md R7). -/
theorem read_resetMemory_0x055 (font : Config.Font) : Memory.read (resetMemory font) 0x055 = 0x20#8 := by
  rw [read_resetMemory, if_pos (by decide), fontByte_five]

/-- Settles O1: the reset state is one that Reset leaves; memory then is `resetMemory`, and each other field is read off
`hostReset`. -/
theorem resetSetsEveryPieceOfState : Obligations.ResetSetsEveryPieceOfState := by
  refine ⟨fun font t ht => ?_, fun font s => s.hostReset_hostReset font⟩
  obtain ⟨s, rfl⟩ : ∃ s : State, t = s.hostReset font := by
    obtain rfl | after := ht
    · exact ⟨_, State.resetWith_eq_hostReset font⟩
    · exact after
  exact ⟨read_resetMemory font, read_resetMemory_0x055 font, s.readV_hostReset font, rfl, rfl, rfl,
    s.readStack_hostReset font, rfl, rfl, Display.pix_blank, rfl, rfl⟩

/-! ## The invariant (R275, R276) -/

/-- Reset establishes the invariant, from any state. -/
theorem inv_hostReset (font : Config.Font) (s : State) : Inv font (s.hostReset font) where
  mem := resetMemory_wf font
  font k hk := by
    rw [State.hostReset_mem, read_resetMemory, if_pos (by omega), Nat.add_sub_cancel_left]
  sp := by simp
  stack j := by simp
  pc := by simp
  status := .of_running rfl

/-- Settles O16: each of the two is a state that Reset leaves. -/
theorem invariantHoldsAtReset : Obligations.InvariantHoldsAtReset := by
  have afterReset (font : Config.Font) : Inv font (State.resetWith font) := inv_hostReset font State.reset
  refine ⟨afterReset, ?_⟩
  have machineReset : State.resetWith defaultFont = State.reset := resetStateIsThatOfTheDefaultFont
  exact machineReset ▸ afterReset defaultFont

/-- A ROM load keeps the invariant: a ROM that fits lies above the fontset and inside the address space. -/
theorem Inv.loadRom {font : Config.Font} {s : State} (inv : Inv font s) (bytes : List Byte) :
    Inv font (s.loadRom bytes).2 := by
  obtain large | fits := Nat.lt_or_ge 3584 bytes.length
  · rwa [s.loadRom_of_tooLarge large]
  · rw [s.loadRom_of_fits fits]
    exact { inv with
      mem := Memory.wf_writeAll inv.mem (show 0x200 + bytes.length ≤ 4096 by omega)
      font := fun k hk => (Memory.read_writeAll_outside s.mem (.inl (by omega))).trans (inv.font k hk) }

theorem Inv.setKey {font : Config.Font} {s : State} (inv : Inv font s) (key : Nat) (pressed : Bool) :
    Inv font (s.setKey key pressed) := by
  obtain isKey | noKey := Nat.lt_or_ge key 16
  · rw [s.setKey_of_lt pressed isKey]
    exact inv.of_fields rfl rfl rfl inv.pc inv.status
  · rwa [s.setKey_of_ge pressed noKey]

/-- Laying out the inputs of a step touches nothing that the invariant reads, and the step keeps it. -/
theorem Inv.hostStep {font : Config.Font} {s t : State} {tick : Bool} {rnd : Byte} (inv : Inv font s)
    (h : s.hostStep tick rnd = .next t) : Inv font t :=
  have laidOut : Inv font (s.withInput ⟨tick, rnd⟩) := inv.of_fields rfl rfl rfl inv.pc inv.status
  everyStepKeepsTheInvariant font _ t laidOut h

theorem State.hostStep_of_hostOp {font : Config.Font} {s t : State} {tick : Bool} {rnd : Byte} {answer : HostAnswer}
    (h : s.hostOp font (.step tick rnd) = .next (t, answer)) : s.hostStep tick rnd = .next t := by
  simp only [State.hostOp] at h
  split at h
  · cases h
    assumption
  · cases h
  · cases h

/-- Settles O18: each operation has its lemma, and ReadDisplay leaves the state as it is. -/
theorem everyHostOperationKeepsTheInvariant : Obligations.EveryHostOperationKeepsTheInvariant := by
  intro font s t op answer inv h
  cases op with
  | reset =>
    cases h
    exact inv_hostReset font s
  | loadRom bytes =>
    cases h
    exact inv.loadRom bytes
  | step tick rnd => exact inv.hostStep (State.hostStep_of_hostOp h)
  | setKey key pressed =>
    cases h
    exact inv.setKey key pressed
  | readDisplay =>
    cases h
    exact inv

/-! ## Boot (R273) -/

/-- With the pc at 0x200, the next word is that of the first two bytes of a ROM that was loaded. -/
theorem State.loadRom_nextWord {s : State} {hi lo : Byte} {rest : List Byte} (hpc : s.pc = 0x200#16)
    (fits : (hi :: lo :: rest).length ≤ 3584) : NextWord (s.loadRom (hi :: lo :: rest)).2 (hi ++ lo) := by
  obtain ⟨-, stored, -, frame⟩ := (loadRomStoresAllOrNothing s (hi :: lo :: rest)).2 fits
  have pc : (s.loadRom (hi :: lo :: rest)).2.pc.toNat = 0x200 := by
    rw [frame.pc (by simp), hpc]
    rfl
  have first : Memory.read (s.loadRom (hi :: lo :: rest)).2.mem 0x200 = hi := stored 0 hi rfl
  have second : Memory.read (s.loadRom (hi :: lo :: rest)).2.mem (0x200 + 1) = lo := stored 1 lo rfl
  rw [NextWord, pc, first, second]
  exact ⟨by decide, rfl⟩

/-- Settles O55: Reset sets the pc to 0x200 and `STATUS` to Running, and a load that fits keeps both. -/
theorem bootRunsTheRomFromItsFirstWord : Obligations.BootRunsTheRomFromItsFirstWord := by
  intro font s hi lo rest hrest
  have fits : (hi :: lo :: rest).length ≤ 3584 := by
    simp only [List.length_cons]
    omega
  obtain ⟨ok, -, -, frame⟩ := (loadRomStoresAllOrNothing (s.hostReset font) (hi :: lo :: rest)).2 fits
  exact ⟨ok, frame.status (by simp), frame.pc (by simp), State.loadRom_nextWord rfl fits⟩

end Sys2Proof.Machine
